-- ==== Sys2Proof/Word.lean ====
section
/-! DEFINITION. The machine's data sizes (00_scope.md R9, R11, R16): the Word, the Byte, and the two operand fields of an instruction. -/

namespace Sys2Proof

/-- A Word: "an exact 32-bit unsigned quantity", the machine's native data size (00_scope.md R11). `+` and `-` are modulo 2^32. -/
abbrev Word := BitVec 32

/-- A Byte: the storage granularity of both stores (00_scope.md R16). -/
abbrev Byte := BitVec 8

/-- A Register Address, 0 to 31 (10_state.md R20). -/
abbrev RegIdx := BitVec 5

/-- A 12-bit immediate field before sign extension (30_encoding.md R98, R99). -/
abbrev Imm12 := BitVec 12

end Sys2Proof
end

