-- ==== Sys2Proof/Config.lean ====
section
/-! DEFINITION. The parameters of the hardware (00_scope.md R9): what is fixed for every run, and the type of the one open policy. -/

namespace Sys2Proof

/-- `MEM_SIZE`: the bytes in each of the two stores (00_scope.md R9, 10_state.md R35). -/
def memSize : Nat := 1000

/-- The width of every access, and the length of every instruction, in bytes (00_scope.md R9, 20_memory.md R62, 30_encoding.md R90). -/
def accessBytes : Nat := 4

/-- The funct7 value that selects SUB within opcode 0x33 (30_encoding.md R101). -/
def funct7Sub : BitVec 7 := 0x20#7

/-- `UNKNOWN_OPCODE_POLICY`, the OPEN parameter of the hardware (00_scope.md R9, 60_exceptions.md R206, 92_eei_decisions.md D5). -/
inductive UnknownOpcodePolicy where
  /-- The reference behaviour: an undefined opcode is a no-op that advances the pc. -/
  | nop
  /-- An undefined opcode raises `UnknownOpcode` and aborts the run. -/
  | fault
deriving DecidableEq, Repr

end Sys2Proof
end

