-- ==== Sys2Proof/Syntax.lean ====
section
/-! DEFINITION. The instruction set: one constructor for each row of spec/opcode_table.json, in the table's order, and the decoded records of 30_encoding.md R91 and R96. -/

namespace Sys2Proof

/-- An instruction, with every bit of its word: the operands first, then the bits the decoder does not read
(30_encoding.md R97), which only the fault record's `instr` field shows (60_exceptions.md R202; log entry 6). -/
inductive Instr where
  /-- `lw rd, imm(rs1)` (41_load.md R140); `ignored` is `instr[14:12]`. -/
  | lw (rd rs1 : RegIdx) (imm : Imm12) (ignored : BitVec 3)
  /-- `addi rd, rs1, imm` (42_imm_arith.md R150); `ignored` is `instr[14:12]`. -/
  | addi (rd rs1 : RegIdx) (imm : Imm12) (ignored : BitVec 3)
  /-- `sw rs2, imm(rs1)` (43_store.md R160); `ignored` is `instr[14:12]`. -/
  | sw (rs2 rs1 : RegIdx) (imm : Imm12) (ignored : BitVec 3)
  /-- `sub rd, rs1, rs2` (44_reg_arith.md R171); `ignored` is `instr[14:12]`. -/
  | sub (rd rs1 rs2 : RegIdx) (ignored : BitVec 3)
  /-- `add rd, rs1, rs2` (44_reg_arith.md R170); `funct7` is any value but 0x20, `ignored` is `instr[14:12]`. -/
  | add (rd rs1 rs2 : RegIdx) (funct7 : BitVec 7) (ignored : BitVec 3)
  /-- `halt` (45_halt_and_undefined.md R180); `ignored` is `instr[31:7]`. -/
  | halt (ignored : BitVec 25)
  /-- A word whose opcode selects no instruction (45_halt_and_undefined.md R182); `ignored` is `instr[31:7]`. -/
  | undefined (opcode : BitVec 7) (ignored : BitVec 25)
deriving DecidableEq, Repr

/-- The kinds the decoder tells apart (30_encoding.md R96, R101). -/
inductive Kind where
  | lw | addi | sw | sub | add | halt | undefined
deriving DecidableEq, Repr

/-- The kind of an instruction. -/
def Instr.kind : Instr → Kind
  | .lw _ _ _ _ => .lw
  | .addi _ _ _ _ => .addi
  | .sw _ _ _ _ => .sw
  | .sub _ _ _ _ => .sub
  | .add _ _ _ _ _ => .add
  | .halt _ => .halt
  | .undefined _ _ => .undefined

/-- The opcode of an instruction (30_encoding.md R101). -/
def Instr.opcode : Instr → BitVec 7
  | .lw _ _ _ _ => 0x03#7
  | .addi _ _ _ _ => 0x13#7
  | .sw _ _ _ _ => 0x23#7
  | .sub _ _ _ _ => 0x33#7
  | .add _ _ _ _ _ => 0x33#7
  | .halt _ => 0x7F#7
  | .undefined opcode _ => opcode

/-- The record `Decode` returns (30_encoding.md R96): a kind and the operand fields, extracted whatever the kind. -/
structure Decoded where
  kind : Kind
  rd   : RegIdx
  rs1  : RegIdx
  rs2  : RegIdx
  immI : Word
  immS : Word
deriving DecidableEq, Repr

/-- One row of the opcode map (30_encoding.md R101): a word matches when its masked bits equal `pattern`. -/
structure OpcodeRow where
  kind    : Kind
  pattern : Word
  mask    : Word
deriving DecidableEq, Repr

/-- Why bytes give no instruction. Decoding a Word cannot fail (30_encoding.md R96): only missing bytes can. -/
inductive DecodeError where
  /-- Fewer than the four bytes of an instruction (30_encoding.md R90). -/
  | truncated
deriving DecidableEq, Repr

end Sys2Proof
end

