-- ==== Sys2Proof/WellFormed.lean ====
section
/-! DEFINITION. Which instructions have an encoding of their own: the two checks the opcode map needs (30_encoding.md R101). Every other field takes every value of its width. -/

namespace Sys2Proof

/-- The five opcodes that select an instruction (30_encoding.md R101, R105). -/
def definedOpcodes : List (BitVec 7) := [0x03#7, 0x13#7, 0x23#7, 0x33#7, 0x7F#7]

/-- ADD holds no funct7 of 0x20 (that word is SUB), and UNDEFINED holds no defined opcode (30_encoding.md R101, R102). -/
def Instr.wf : Instr → Bool
  | .lw _ _ _ _ => true
  | .addi _ _ _ _ => true
  | .sw _ _ _ _ => true
  | .sub _ _ _ _ => true
  | .add _ _ _ funct7 _ => funct7 != funct7Sub
  | .halt _ => true
  | .undefined opcode _ => !definedOpcodes.contains opcode

end Sys2Proof
end

