-- ==== Sys2Proof/Decode.lean ====
section
/-! DEFINITION. From bytes and words to instructions and back: byte order (20_memory.md R60, R61), fields and immediates
(30_encoding.md R91, R98, R99), the decoder (R96, R101), and the encoder written from the format tables (R92 to R95). -/

namespace Sys2Proof

/-! ## Byte order -/

/-- The Word whose bytes at `a`, `a+1`, `a+2`, `a+3` are these, most significant first (20_memory.md R60, R61). -/
def wordOfBytes (b0 b1 b2 b3 : Byte) : Word := b0 ++ b1 ++ b2 ++ b3

/-- The byte of `w` that stands at address `a + k`, k from 0 to 3 (20_memory.md R61): `w[31:24]` first. -/
def byteOfWord (w : Word) (k : Nat) : Byte := w.extractLsb' (24 - 8 * k) 8

/-- The four bytes of a Word in address order. -/
def bytesOfWord (w : Word) : List Byte :=
  [byteOfWord w 0, byteOfWord w 1, byteOfWord w 2, byteOfWord w 3]

/-! ## Fields (30_encoding.md R91) -/

def fieldOpcode (w : Word) : BitVec 7 := w.extractLsb' 0 7
def fieldRd (w : Word) : RegIdx := w.extractLsb' 7 5
def fieldIgnored (w : Word) : BitVec 3 := w.extractLsb' 12 3
def fieldRs1 (w : Word) : RegIdx := w.extractLsb' 15 5
def fieldRs2 (w : Word) : RegIdx := w.extractLsb' 20 5
def fieldFunct7 (w : Word) : BitVec 7 := w.extractLsb' 25 7
def fieldUpper (w : Word) : BitVec 25 := w.extractLsb' 7 25
/-- `instr[31:20]`. -/
def fieldImmI (w : Word) : Imm12 := w.extractLsb' 20 12
/-- `instr[31:25] ++ instr[11:7]`. -/
def fieldImmS (w : Word) : Imm12 := w.extractLsb' 25 7 ++ w.extractLsb' 7 5

/-- `sext_32` of a 12-bit immediate (00_scope.md R11, 30_encoding.md R98, R99). -/
def sext (imm : Imm12) : Word := imm.signExtend 32

/-! ## The decoder -/

/-- The dispatch on opcode and, for 0x33, on funct7 (30_encoding.md R96, 44_reg_arith.md R172). -/
def kindOf (opcode funct7 : BitVec 7) : Kind :=
  if opcode = 0x03#7 then .lw
  else if opcode = 0x13#7 then .addi
  else if opcode = 0x23#7 then .sw
  else if opcode = 0x33#7 then (if funct7 = funct7Sub then .sub else .add)
  else if opcode = 0x7F#7 then .halt
  else .undefined

/-- `Decode(instr)`, the record of 30_encoding.md R96. -/
def decodeRecord (w : Word) : Decoded where
  kind := kindOf (fieldOpcode w) (fieldFunct7 w)
  rd   := fieldRd w
  rs1  := fieldRs1 w
  rs2  := fieldRs2 w
  immI := sext (fieldImmI w)
  immS := sext (fieldImmS w)

/-- The instruction a Word is (30_encoding.md R96, R101). Total: every Word is one. -/
def decode (w : Word) : Instr :=
  match kindOf (fieldOpcode w) (fieldFunct7 w) with
  | .lw => .lw (fieldRd w) (fieldRs1 w) (fieldImmI w) (fieldIgnored w)
  | .addi => .addi (fieldRd w) (fieldRs1 w) (fieldImmI w) (fieldIgnored w)
  | .sw => .sw (fieldRs2 w) (fieldRs1 w) (fieldImmS w) (fieldIgnored w)
  | .sub => .sub (fieldRd w) (fieldRs1 w) (fieldRs2 w) (fieldIgnored w)
  | .add => .add (fieldRd w) (fieldRs1 w) (fieldRs2 w) (fieldFunct7 w) (fieldIgnored w)
  | .halt => .halt (fieldUpper w)
  | .undefined => .undefined (fieldOpcode w) (fieldUpper w)

/-- The instruction at the head of a byte list and the bytes after it: four bytes, big-endian (30_encoding.md R90). -/
def decodeBytes : List Byte → Except DecodeError (Instr × List Byte)
  | b0 :: b1 :: b2 :: b3 :: rest => .ok (decode (wordOfBytes b0 b1 b2 b3), rest)
  | _ => .error .truncated

/-- The opcode map as a table, in matching order, SUB before ADD (30_encoding.md R101, R102). -/
def opcodeTable : List OpcodeRow :=
  [ ⟨.lw,   0x00000003#32, 0x0000007F#32⟩,
    ⟨.addi, 0x00000013#32, 0x0000007F#32⟩,
    ⟨.sw,   0x00000023#32, 0x0000007F#32⟩,
    ⟨.sub,  0x40000033#32, 0xFE00007F#32⟩,
    ⟨.add,  0x00000033#32, 0x0000007F#32⟩,
    ⟨.halt, 0x0000007F#32, 0x0000007F#32⟩ ]

/-- The kind of the first row a Word matches; a Word that matches no row is UNDEFINED (30_encoding.md R102). -/
def tableKind (w : Word) : List OpcodeRow → Kind
  | [] => .undefined
  | row :: rest => if w &&& row.mask = row.pattern then row.kind else tableKind w rest

/-! ## The encoder (30_encoding.md R92 to R95) -/

/-- The word of an instruction, field by field from the format tables. -/
def encode : Instr → Word
  | .lw rd rs1 imm ignored => imm ++ rs1 ++ ignored ++ rd ++ 0x03#7
  | .addi rd rs1 imm ignored => imm ++ rs1 ++ ignored ++ rd ++ 0x13#7
  | .sw rs2 rs1 imm ignored =>
      imm.extractLsb' 5 7 ++ rs2 ++ rs1 ++ ignored ++ imm.extractLsb' 0 5 ++ 0x23#7
  | .sub rd rs1 rs2 ignored => funct7Sub ++ rs2 ++ rs1 ++ ignored ++ rd ++ 0x33#7
  | .add rd rs1 rs2 funct7 ignored => funct7 ++ rs2 ++ rs1 ++ ignored ++ rd ++ 0x33#7
  | .halt ignored => ignored ++ 0x7F#7
  | .undefined opcode ignored => ignored ++ opcode

/-- The bytes of an instruction in the order the Instruction Store holds them (20_memory.md R61). -/
def encodeBytes (i : Instr) : List Byte := bytesOfWord (encode i)

/-- The host's probe: the instruction the decoder reads from the word `w` of `nbits` bits (bits above `nbits` are 0),
laid out big-endian. More than 32 bits is no instruction of this hardware (30_encoding.md R90; log entry 9). -/
def decodeTableWord (nbits w : Nat) : Option Instr :=
  if nbits ≤ 32 then
    match decodeBytes (bytesOfWord (BitVec.ofNat 32 (w % 2 ^ nbits))) with
    | .ok (i, _) => some i
    | .error _ => none
  else none

end Sys2Proof
end

