-- ==== Sys2Proof/Machine/State.lean ====
section
/-! DEFINITION. The state of the CORE (10_state.md R41), the reasons a cycle ends in a fault (60_exceptions.md R202, R204), and the machine after reset (70_reset_and_hazards.md R230). -/

namespace Sys2Proof.Machine

/-- A store's contents: (address, byte) pairs, addresses strictly rising and below `MEM_SIZE`, no byte equal to what an
unlisted address reads as (`Memory.wf`); log entry 2. -/
abbrev Memory := List Host.Cell

/-- The two states of the Datapath Engine (10_state.md R30). -/
inductive Mode where
  | running | halted
deriving DecidableEq, Repr

/-- The two address spaces (10_state.md R35). -/
inductive Space where
  | imem | dmem
deriving DecidableEq, Repr

/-- The accesses an out-of-window fault tells apart (20_memory.md R65). -/
inductive Access where
  | fetch | load | store
deriving DecidableEq, Repr

/-- The kinds of fault a step can raise (60_exceptions.md R204). -/
inductive FaultKind where
  | outOfWindow | unknownOpcode
deriving DecidableEq, Repr

/-- The fault record (60_exceptions.md R202). -/
structure FaultRecord where
  code   : Nat
  kind   : FaultKind
  space  : Option Space
  access : Option Access
  addr   : Word
  pc     : Word
  instr  : Option Word
  instrs : Nat
deriving DecidableEq, Repr

/-- Why a cycle faults (60_exceptions.md R204). Each carries what its record needs; the state it leaves is the state before
the cycle (R203), which the caller of `step` holds (log entry 4). -/
inductive Fault where
  /-- Code 1, raised by `step`'s fetch when `u(pc) > 996` (40_datapath_cycle.md R122). Safe: the spec's own fault. -/
  | fetchOutOfWindow (pc : Word) (instrs : Nat)
  /-- Code 2, raised by LW when its effective address is above 996 (41_load.md R140). Safe: the spec's own fault. -/
  | loadOutOfWindow (addr instr pc : Word) (instrs : Nat)
  /-- Code 3, raised by SW when its effective address is above 996 (43_store.md R160). Safe: the spec's own fault. -/
  | storeOutOfWindow (addr instr pc : Word) (instrs : Nat)
  /-- Code 4, raised by an undefined opcode under policy FAULT (45_halt_and_undefined.md R182). Safe: the spec's own fault. -/
  | unknownOpcode (instr pc : Word) (instrs : Nat)
deriving DecidableEq, Repr

/-- Why the model gives an instruction no meaning. -/
inductive Refusal where
  /-- An instruction of the table not yet modelled, by its mnemonic; raised by no arm of `exec`. Safe: the model stops. -/
  | notModelled (mnemonic : String)
deriving DecidableEq, Repr

/-- The whole architectural state (10_state.md R41), and the launch parameter that is held fixed for a run (R40). -/
structure State where
  /-- The program counter (10_state.md R26). -/
  pc : Word
  /-- The cells of x1 to x31, x1 first; x0 has none (10_state.md R20, R21). Read and written only by `readReg` and `writeReg`. -/
  regs : Vector Word 31
  /-- The Instruction Store (10_state.md R36). -/
  imem : Memory
  /-- The Data Store (10_state.md R37). -/
  dmem : Memory
  /-- RUNNING or HALTED (10_state.md R30). -/
  mode : Mode
  /-- `halt_pending`, the pending-freeze flag (10_state.md R31). -/
  haltPending : Bool
  /-- The total-cycles counter (10_state.md R32). -/
  cycles : Nat
  /-- The total-instructions counter (10_state.md R32). -/
  instrs : Nat
  /-- `UNKNOWN_OPCODE_POLICY`, an input held fixed for a run (10_state.md R40; log entry 1). -/
  unknownOpcodePolicy : UnknownOpcodePolicy
deriving DecidableEq, Repr

/-- The machine after construction (70_reset_and_hazards.md R230) with no image byte listed (log entry 2), under the default
policy (92_eei_decisions.md D5; log entry 1). -/
def State.reset : State where
  pc := 0
  regs := Vector.replicate 31 0
  imem := []
  dmem := []
  mode := .running
  haltPending := false
  cycles := 0
  instrs := 0
  unknownOpcodePolicy := .nop

end Sys2Proof.Machine
end

