-- ==== Sys2Proof/Machine/Memory.lean ====
section
/-! DEFINITION. The bytes of a store and the three access primitives over them (20_memory.md R60 to R68): one window check, one byte order, for both stores. -/

namespace Sys2Proof.Machine

/-! ## Bytes -/

/-- What an address no cell lists reads as. The spec fixes no fill (20_memory.md R79): DESIGN CHOICE, log entry 2. -/
def Memory.unlisted : Byte := 0x00#8

/-- The byte at an address. -/
def Memory.read : Memory → Nat → Byte
  | [], _ => Memory.unlisted
  | (k, b) :: rest, a => if a = k then b else Memory.read rest a

/-- A cell in front of a memory, left out where it lists what an unlisted address reads as. -/
def Memory.cons (a : Nat) (b : Byte) (rest : Memory) : Memory :=
  if b = Memory.unlisted then rest else (a, b) :: rest

/-- The memory with one byte replaced, in canonical form. -/
def Memory.write : Memory → Nat → Byte → Memory
  | [], a, b => Memory.cons a b []
  | (k, c) :: rest, a, b =>
    if a < k then Memory.cons a b ((k, c) :: rest)
    else if a = k then Memory.cons a b rest
    else (k, c) :: Memory.write rest a b

/-- Canonical from address `lo` up: addresses rise strictly from `lo`, stay in the window, and no cell is redundant. -/
def Memory.wfFrom : Nat → Memory → Bool
  | _, [] => true
  | lo, (k, b) :: rest =>
    decide (lo ≤ k) && decide (k < memSize) && (b != Memory.unlisted) && Memory.wfFrom (k + 1) rest

/-- The canonical form of a store's contents: equal contents are equal lists. -/
def Memory.wf (m : Memory) : Bool := Memory.wfFrom 0 m

/-! ## Words -/

/-- The window check, on the unsigned address with integer arithmetic: all four bytes in 0 to 999 (20_memory.md R65). -/
def inWindow (a : Word) : Bool := decide (a.toNat + (accessBytes - 1) ≤ memSize - 1)

/-- The Word at address `a`, big-endian, or none where the access is out of the window (20_memory.md R66, R67). -/
def Memory.readWord (m : Memory) (a : Word) : Option Word :=
  if inWindow a then
    some (wordOfBytes (m.read a.toNat) (m.read (a.toNat + 1)) (m.read (a.toNat + 2)) (m.read (a.toNat + 3)))
  else none

/-- The four bytes of `v` stored from address `n` up, most significant first (20_memory.md R61). -/
def Memory.putWord (m : Memory) (n : Nat) (v : Word) : Memory :=
  (((m.write n (byteOfWord v 0)).write (n + 1) (byteOfWord v 1)).write (n + 2) (byteOfWord v 2)).write (n + 3)
    (byteOfWord v 3)

/-- The memory after the Word `v` is stored at `a`, or none, no byte touched, out of the window (20_memory.md R68). -/
def Memory.writeWord (m : Memory) (a : Word) (v : Word) : Option Memory :=
  if inWindow a then some (m.putWord a.toNat v) else none

end Sys2Proof.Machine
end

