-- ==== Sys2Proof/Machine/Ops.lean ====
section
/-! DEFINITION. The named operations the meanings share: the Register File's two ports, the fetch, write-back with the
bookkeeping of a cycle, the drain cycle, and raising a fault (00_scope.md R12 to R14, 40_datapath_cycle.md R120). -/

namespace Sys2Proof.Machine

/-! ## Register File (10_state.md R21) -/

/-- `x[i]`: 0 for register 0, else the stored Word. -/
def State.readReg (s : State) (r : RegIdx) : Word :=
  if r = 0#5 then 0 else s.regs[r.toNat - 1]'(by have := r.isLt; omega)

/-- `x[i] <- v`: discarded for register 0. -/
def State.writeReg (s : State) (r : RegIdx) (v : Word) : State :=
  if r = 0#5 then s
  else { s with regs := s.regs.set (r.toNat - 1) v (by have := r.isLt; omega) }

/-! ## Fetch (20_memory.md R66) -/

/-- The Word at `pc` of the Instruction Store, or none where the fetch is out of the window. -/
def State.fetch (s : State) : Option Word := s.imem.readWord s.pc

/-! ## The end of a cycle (40_datapath_cycle.md R129, R130) -/

/-- Steps 6 and 7 for every kind but HALT: the pc moves on by 4 and both counters count. -/
def State.retire (s : State) : State :=
  { s with pc := s.pc + 4, cycles := s.cycles + 1, instrs := s.instrs + 1 }

/-- Step 5 and the end of the cycle: write-back, then `retire` (40_datapath_cycle.md R126). -/
def State.writeBack (s : State) (rd : RegIdx) (result : Word) : State := (s.writeReg rd result).retire

/-- The drain cycle: HALTED, one more cycle counted, nothing else (40_datapath_cycle.md R121). -/
def State.drain (s : State) : State := { s with mode := .halted, cycles := s.cycles + 1 }

/-! ## Faults (60_exceptions.md R201 to R204) -/

/-- `raise`: the cycle ends with a fault that records the pc and the instruction count it started with, and commits nothing.
There is no trap entry, no saved state and no handler (60_exceptions.md R205), and no return (R208). -/
def raise (fault : Word → Nat → Fault) (s : State) : Host.Outcome State Fault Refusal :=
  .fault (fault s.pc s.instrs)

/-- The fault record of 60_exceptions.md R202, with the codes of R204. -/
def Fault.record : Fault → FaultRecord
  | .fetchOutOfWindow pc instrs =>
    { code := 1, kind := .outOfWindow, space := some .imem, access := some .fetch, addr := pc, pc := pc,
      instr := none, instrs := instrs }
  | .loadOutOfWindow addr instr pc instrs =>
    { code := 2, kind := .outOfWindow, space := some .dmem, access := some .load, addr := addr, pc := pc,
      instr := some instr, instrs := instrs }
  | .storeOutOfWindow addr instr pc instrs =>
    { code := 3, kind := .outOfWindow, space := some .dmem, access := some .store, addr := addr, pc := pc,
      instr := some instr, instrs := instrs }
  | .unknownOpcode instr pc instrs =>
    { code := 4, kind := .unknownOpcode, space := none, access := none, addr := pc, pc := pc,
      instr := some instr, instrs := instrs }

end Sys2Proof.Machine
end

