-- ==== Sys2Proof/Machine/Flags.lean ====
section
/-! DEFINITION. The ALU and the engine's flags. The hardware has no arithmetic flags (10_state.md R29), so the ALU answers a
Word and nothing else; the one flag an instruction writes is `halt_pending` (10_state.md R31). -/

namespace Sys2Proof.Machine

/-- The ALU's operations (30_encoding.md R104). -/
inductive AluOp where
  | add | sub
deriving DecidableEq, Repr

/-- `alu_y`, modulo 2^32, with no carry, overflow, zero or sign (30_encoding.md R104, 44_reg_arith.md R173). -/
def alu : AluOp → Word → Word → Word
  | .add, a, b => a + b
  | .sub, a, b => a - b

/-- The end of the cycle that decodes HALT: the flag is set, the cycle counts, the pc and the instruction count stay
(45_halt_and_undefined.md R180, 40_datapath_cycle.md R130). -/
def State.setHaltPending (s : State) : State := { s with haltPending := true, cycles := s.cycles + 1 }

/-- The `halted` output (40_datapath_cycle.md R134). -/
def State.isHalted (s : State) : Bool := s.mode = .halted

end Sys2Proof.Machine
end

