-- ==== Sys2Proof/Machine/Halt.lean ====
section
/-! DEFINITION. HALT and the undefined opcodes (45_halt_and_undefined.md). -/

namespace Sys2Proof.Machine

/-- HALT (45_halt_and_undefined.md R180, R181): sets `halt_pending`; the next cycle drains. -/
def execHalt (_ignored : BitVec 25) (s : State) : Host.Outcome State Fault Refusal := .next s.setHaltPending

/-- An undefined opcode (45_halt_and_undefined.md R182): under NOP a counted no-op, under FAULT an `UnknownOpcode` fault. -/
def execUndefined (opcode : BitVec 7) (ignored : BitVec 25) (s : State) : Host.Outcome State Fault Refusal :=
  match s.unknownOpcodePolicy with
  | .nop => .next s.retire
  | .fault => raise (.unknownOpcode (encode (.undefined opcode ignored))) s

end Sys2Proof.Machine
end

