-- ==== Sys2Proof/Machine/Operands.lean ====
section
/-! DEFINITION. The three operand forms (30_encoding.md R100): register, sign-extended 12-bit immediate, base plus offset. -/

namespace Sys2Proof.Machine

/-- The register operand `x[i]`. -/
def regOperand (s : State) (r : RegIdx) : Word := s.readReg r

/-- The immediate operand: sign-extended, never scaled, shifted or zero-extended. -/
def immOperand (imm : Imm12) : Word := sext imm

/-- The memory operand `x[rs1] + imm`, modulo 2^32; the base is not modified (41_load.md R141, 43_store.md R161). -/
def effectiveAddress (s : State) (rs1 : RegIdx) (imm : Imm12) : Word := regOperand s rs1 + immOperand imm

end Sys2Proof.Machine
end

