-- ==== Sys2Proof/Machine/ImmArith.lean ====
section
/-! DEFINITION. Register-immediate arithmetic: ADDI (42_imm_arith.md). -/

namespace Sys2Proof.Machine

/-- ADDI (42_imm_arith.md R150, R151): `x[rd] <- x[rs1] + immI`, modulo 2^32; `instr[14:12]` selects nothing. -/
def execAddi (rd rs1 : RegIdx) (imm : Imm12) (_ignored : BitVec 3) (s : State) : Host.Outcome State Fault Refusal :=
  .next (s.writeBack rd (alu .add (regOperand s rs1) (immOperand imm)))

end Sys2Proof.Machine
end

