-- ==== Sys2Proof/Machine/Load.lean ====
section
/-! DEFINITION. The load family: LW (41_load.md). -/

namespace Sys2Proof.Machine

/-- LW (41_load.md R140, R141): reads the Word at `x[rs1] + immI` of the Data Store and writes it to `rd`; an address out of
the window faults, for `rd = 0` too. -/
def execLw (rd rs1 : RegIdx) (imm : Imm12) (ignored : BitVec 3) (s : State) : Host.Outcome State Fault Refusal :=
  match s.dmem.readWord (effectiveAddress s rs1 imm) with
  | none => raise (.loadOutOfWindow (effectiveAddress s rs1 imm) (encode (.lw rd rs1 imm ignored))) s
  | some v => .next (s.writeBack rd v)

end Sys2Proof.Machine
end

