-- ==== Sys2Proof/Machine/RegArith.lean ====
section
/-! DEFINITION. Register-register arithmetic: SUB and ADD (44_reg_arith.md). -/

namespace Sys2Proof.Machine

/-- SUB (44_reg_arith.md R171): `x[rd] <- x[rs1] - x[rs2]`, modulo 2^32. -/
def execSub (rd rs1 rs2 : RegIdx) (_ignored : BitVec 3) (s : State) : Host.Outcome State Fault Refusal :=
  .next (s.writeBack rd (alu .sub (regOperand s rs1) (regOperand s rs2)))

/-- ADD (44_reg_arith.md R170): `x[rd] <- x[rs1] + x[rs2]`, modulo 2^32, whatever the funct7 other than 0x20 (R172). -/
def execAdd (rd rs1 rs2 : RegIdx) (_funct7 : BitVec 7) (_ignored : BitVec 3) (s : State) :
    Host.Outcome State Fault Refusal :=
  .next (s.writeBack rd (alu .add (regOperand s rs1) (regOperand s rs2)))

end Sys2Proof.Machine
end

