-- ==== Sys2Proof/Machine/Store.lean ====
section
/-! DEFINITION. The store family: SW (43_store.md). -/

namespace Sys2Proof.Machine

/-- SW (43_store.md R160, R161): stores `x[rs2]` at `x[rs1] + immS` of the Data Store, writes no register; an address out of
the window faults and no byte is written. -/
def execSw (rs2 rs1 : RegIdx) (imm : Imm12) (ignored : BitVec 3) (s : State) : Host.Outcome State Fault Refusal :=
  match s.dmem.writeWord (effectiveAddress s rs1 imm) (regOperand s rs2) with
  | none => raise (.storeOutOfWindow (effectiveAddress s rs1 imm) (encode (.sw rs2 rs1 imm ignored))) s
  | some m => .next ({ s with dmem := m }.retire)

end Sys2Proof.Machine
end

