-- ==== Sys2Proof/Machine/Dispatch.lean ====
section
/-! DEFINITION. The dispatch (40_datapath_cycle.md R124): one arm for each row of spec/opcode_table.json, in the table's order. An arm is steps 4 to 7 of the cycle. -/

namespace Sys2Proof.Machine

def exec (i : Instr) (s : State) : Host.Outcome State Fault Refusal :=
  match i with
  | .lw rd rs1 imm ignored => Sys2Proof.Machine.execLw rd rs1 imm ignored s
  | .addi rd rs1 imm ignored => Sys2Proof.Machine.execAddi rd rs1 imm ignored s
  | .sw rs2 rs1 imm ignored => Sys2Proof.Machine.execSw rs2 rs1 imm ignored s
  | .sub rd rs1 rs2 ignored => Sys2Proof.Machine.execSub rd rs1 rs2 ignored s
  | .add rd rs1 rs2 funct7 ignored => Sys2Proof.Machine.execAdd rd rs1 rs2 funct7 ignored s
  | .halt ignored => Sys2Proof.Machine.execHalt ignored s
  | .undefined opcode ignored => Sys2Proof.Machine.execUndefined opcode ignored s

end Sys2Proof.Machine
end

