-- ==== Sys2Proof/Machine/Step.lean ====
section
/-! DEFINITION. One cycle of the Datapath Engine (40_datapath_cycle.md R120), and the host's probe word. -/

namespace Sys2Proof.Machine

/-- `Step` (40_datapath_cycle.md R120): idle while HALTED (R128), the drain cycle after a HALT (R121), otherwise fetch (R122),
decode (R123) and dispatch (R124). -/
def step (s : State) : Host.Outcome State Fault Refusal :=
  match s.mode with
  | .halted => .next s
  | .running =>
    if s.haltPending then .next s.drain
    else
      match s.fetch with
      | none => raise Fault.fetchOutOfWindow s
      | some w => exec (decode w) s

/-- The host's probe: `s` about to run the word `w` of `nbits` bits. It stands for the load of a program from outside
(20_memory.md R77; log entry 3): the word is placed at `pc` of the Instruction Store, the engine is RUNNING with no HALT
pending, and a pc that no fetch can serve is taken to 0. -/
def State.withFetchWord (s : State) (nbits w : Nat) : State :=
  let pc := if inWindow s.pc then s.pc else 0
  { s with
    pc := pc
    imem := s.imem.putWord pc.toNat (BitVec.ofNat 32 (w % 2 ^ nbits))
    mode := .running
    haltPending := false }

end Sys2Proof.Machine
end

