-- ==== Sys2Proof/Machine/Assembler.lean ====
section
/-! DEFINITION. The spec's assembler (30_encoding.md R108 to R110): a line of text to the canonical word. No meaning of an instruction depends on it. -/

namespace Sys2Proof.Machine

/-- An assembly line: the six instructions (30_encoding.md R108) and the three pseudo-instructions (R110). -/
inductive Asm where
  | lw (rd : RegIdx) (imm : Int) (rs1 : RegIdx)
  | addi (rd rs1 : RegIdx) (imm : Int)
  | sw (rs2 : RegIdx) (imm : Int) (rs1 : RegIdx)
  | add (rd rs1 rs2 : RegIdx)
  | sub (rd rs1 rs2 : RegIdx)
  | halt
  | nop
  | mv (rd rs1 : RegIdx)
  | li (rd : RegIdx) (imm : Int)
deriving DecidableEq, Repr

/-- A 12-bit immediate, or none outside -2048 to 2047, which the assembler rejects (30_encoding.md R108). -/
def asmImm (imm : Int) : Option Imm12 :=
  if -2048 ≤ imm ∧ imm ≤ 2047 then some (BitVec.ofInt 12 imm) else none

/-- The instruction an assembly line stands for, in its canonical spelling: `instr[14:12]` is 0b010 for LW and SW, else 0;
funct7 of ADD is 0; HALT is the all-ones word (30_encoding.md R109, R110). -/
def Asm.instr : Asm → Option Instr
  | .lw rd imm rs1 => (asmImm imm).map (fun i => .lw rd rs1 i 0b010#3)
  | .addi rd rs1 imm => (asmImm imm).map (fun i => .addi rd rs1 i 0b000#3)
  | .sw rs2 imm rs1 => (asmImm imm).map (fun i => .sw rs2 rs1 i 0b010#3)
  | .add rd rs1 rs2 => some (.add rd rs1 rs2 0#7 0b000#3)
  | .sub rd rs1 rs2 => some (.sub rd rs1 rs2 0b000#3)
  | .halt => some (.halt (BitVec.allOnes 25))
  | .nop => some (.addi 0 0 0 0b000#3)
  | .mv rd rs1 => some (.addi rd rs1 0 0b000#3)
  | .li rd imm => (asmImm imm).map (fun i => .addi rd 0 i 0b000#3)

/-- The canonical word of an assembly line (30_encoding.md R109). -/
def Asm.word (a : Asm) : Option Word := a.instr.map encode

/-! ## The text of a line (30_encoding.md R108) -/

/-- A token of a line: a run of characters, or one of the three separators. -/
inductive Token where
  | run (cs : List Char)
  | comma
  | lparen
  | rparen
deriving DecidableEq, Repr

/-- The token a pending run ends as, if any character is in it. -/
def flushRun (pending : List Char) : List Token := if pending = [] then [] else [.run pending]

/-- The tokens of a line; spaces only separate. -/
def tokens : List Char → List Char → List Token
  | [], pending => flushRun pending
  | ' ' :: rest, pending => flushRun pending ++ tokens rest []
  | ',' :: rest, pending => flushRun pending ++ .comma :: tokens rest []
  | '(' :: rest, pending => flushRun pending ++ .lparen :: tokens rest []
  | ')' :: rest, pending => flushRun pending ++ .rparen :: tokens rest []
  | c :: rest, pending => tokens rest (pending ++ [c])

/-- The number a non-empty run of decimal digits spells. -/
def digitsValue : List Char → Nat → Option Nat
  | [], acc => some acc
  | c :: rest, acc =>
    if '0'.toNat ≤ c.toNat ∧ c.toNat ≤ '9'.toNat then digitsValue rest (10 * acc + (c.toNat - '0'.toNat)) else none

/-- A decimal number, none for the empty run. -/
def parseNumber (cs : List Char) : Option Nat := if cs = [] then none else digitsValue cs 0

/-- A register `x0` to `x31`, without a leading zero (30_encoding.md R108; log entry 12). -/
def parseRegister : List Char → Option RegIdx
  | ['x', '0'] => some 0
  | 'x' :: '0' :: _ => none
  | 'x' :: digits =>
    match parseNumber digits with
    | some n => if n < 32 then some (BitVec.ofNat 5 n) else none
    | none => none
  | _ => none

/-- A decimal immediate, negative with `-` (30_encoding.md R108). The spec says nothing of leading zeros (`007`) or of `-0`: both
are accepted and mean the number they spell (DESIGN CHOICE, log entry 12). -/
def parseImmediate : List Char → Option Int
  | '-' :: digits => (parseNumber digits).map (fun n => - (n : Int))
  | digits => (parseNumber digits).map (fun n => (n : Int))

/-- The line `m rd, rs1, rs2` of the register-register instructions. -/
def parseThree (a b c : List Char) (f : RegIdx → RegIdx → RegIdx → Asm) : Option Asm :=
  match parseRegister a, parseRegister b, parseRegister c with
  | some x, some y, some z => some (f x y z)
  | _, _, _ => none

/-- The line `m r, imm(rs1)` of LW and SW. -/
def parseMemory (r imm base : List Char) (f : RegIdx → Int → RegIdx → Asm) : Option Asm :=
  match parseRegister r, parseImmediate imm, parseRegister base with
  | some x, some i, some b => some (f x i b)
  | _, _, _ => none

/-- A line from its tokens: mnemonic in lower case, operands separated by commas (30_encoding.md R108, R110). -/
def parseTokens : List Token → Option Asm
  | [.run ['h', 'a', 'l', 't']] => some .halt
  | [.run ['n', 'o', 'p']] => some .nop
  | [.run ['m', 'v'], .run a, .comma, .run b] =>
    match parseRegister a, parseRegister b with
    | some x, some y => some (.mv x y)
    | _, _ => none
  | [.run ['l', 'i'], .run a, .comma, .run imm] =>
    match parseRegister a, parseImmediate imm with
    | some x, some i => some (.li x i)
    | _, _ => none
  | [.run ['a', 'd', 'd'], .run a, .comma, .run b, .comma, .run c] => parseThree a b c .add
  | [.run ['s', 'u', 'b'], .run a, .comma, .run b, .comma, .run c] => parseThree a b c .sub
  | [.run ['a', 'd', 'd', 'i'], .run a, .comma, .run b, .comma, .run imm] =>
    match parseRegister a, parseRegister b, parseImmediate imm with
    | some x, some y, some i => some (.addi x y i)
    | _, _, _ => none
  | [.run ['l', 'w'], .run r, .comma, .run imm, .lparen, .run base, .rparen] => parseMemory r imm base .lw
  | [.run ['s', 'w'], .run r, .comma, .run imm, .lparen, .run base, .rparen] => parseMemory r imm base .sw
  | _ => none

/-- The word of a line of assembly text; none for a line the assembler rejects (30_encoding.md R108 to R110). -/
def assemble (line : List Char) : Option Word := (parseTokens (tokens line [])).bind Asm.word

end Sys2Proof.Machine
end

