-- ==== Sys2Proof/Machine/Datapath.lean ====
section
/-! DEFINITION. The same cycle as the spec's block diagram draws it: the control signals of 30_encoding.md R103, the ports of
10_state.md R38, and the commit they drive. `exec` is the model; this file is the second design it is compared with. -/

namespace Sys2Proof.Machine

/-- What drives `alu_b` (30_encoding.md R103). -/
inductive AluB where
  | immI | immS | rs2
deriving DecidableEq, Repr

/-- What is written back (30_encoding.md R103). -/
inductive WriteBackSource where
  | aluY | dmRdata
deriving DecidableEq, Repr

/-- The next pc (30_encoding.md R103): `pc + 4`, `pc`, or none because the cycle faults. -/
inductive PcNext where
  | plus4 | hold | fault
deriving DecidableEq, Repr

/-- The control signals of one decoded kind, none where the table says unused (30_encoding.md R103). `alu_op` is ADD for every
kind but SUB, the kinds that do not use the ALU included (R104); such a kind drives no operand. -/
structure Control where
  rfWe           : Bool
  dmRe           : Bool
  dmWe           : Bool
  aluB           : Option AluB
  aluOp          : AluOp
  writeBack      : Option WriteBackSource
  setHaltPending : Bool
  pcNext         : PcNext
deriving DecidableEq, Repr

/-- The table of 30_encoding.md R103, row by row. -/
def controlTable : Kind → UnknownOpcodePolicy → Control
  | .lw, _ => ⟨true, true, false, some .immI, .add, some .dmRdata, false, .plus4⟩
  | .addi, _ => ⟨true, false, false, some .immI, .add, some .aluY, false, .plus4⟩
  | .sw, _ => ⟨false, false, true, some .immS, .add, none, false, .plus4⟩
  | .add, _ => ⟨true, false, false, some .rs2, .add, some .aluY, false, .plus4⟩
  | .sub, _ => ⟨true, false, false, some .rs2, .sub, some .aluY, false, .plus4⟩
  | .halt, _ => ⟨false, false, false, none, .add, none, true, .hold⟩
  | .undefined, .nop => ⟨false, false, false, none, .add, none, false, .plus4⟩
  | .undefined, .fault => ⟨false, false, false, none, .add, none, false, .fault⟩

/-- The ports of the four blocks during the execute part of a cycle (10_state.md R38); none where a port is not used in
the cycle, except that `rf_ra1`, `rf_ra2` and `rf_wa` carry the word's fields, `rf_rd1` and `rf_rd2` the registers those name, and
`dm_oow` is false where no access is made, in every such cycle (DESIGN CHOICE, log entry 13).
`if_addr`, `if_word` and `if_oow` belong to the fetch: `ifPorts`. -/
structure Ports where
  rfRa1   : RegIdx
  rfRa2   : RegIdx
  rfRd1   : Word
  rfRd2   : Word
  aluA    : Option Word
  aluB    : Option Word
  aluOp   : AluOp
  aluY    : Option Word
  dmAddr  : Option Word
  dmRe    : Bool
  dmRdata : Option Word
  dmWe    : Bool
  dmWdata : Option Word
  dmOow   : Bool
  rfWe    : Bool
  rfWa    : RegIdx
  rfWd    : Option Word
deriving DecidableEq, Repr

/-- The Instruction Store's ports in a cycle that fetches: `if_addr`, `if_word`, `if_oow` (10_state.md R38). -/
def ifPorts (s : State) : Word × Option Word × Bool := (s.pc, s.fetch, s.fetch.isNone)

/-- The value that drives `alu_b`. -/
def aluBValue (d : Decoded) (rfRd2 : Word) : AluB → Word
  | .immI => d.immI
  | .immS => d.immS
  | .rs2 => rfRd2

/-- `alu_y`, where both operands are driven (30_encoding.md R104). -/
def aluPort : AluOp → Option Word → Option Word → Option Word
  | op, some a, some b => some (alu op a b)
  | _, _, _ => none

/-- The port values of the execute part of a cycle: for LW and SW `dm_addr = alu_y`, for SW `dm_wdata = x[rs2]`
(30_encoding.md R103). DESIGN CHOICE, log entry 13: with `rf_we` 0 the spec gives `rf_wa` no value, and here it is the word's rd
field; where an instruction does not read a register (HALT and UNDEFINED both, LW and ADDI the second) it gives `rf_rd1` and
`rf_rd2` none, and here they are `x[rs1]` and `x[rs2]` of the word's fields. Nothing reads these values. -/
def ports (d : Decoded) (c : Control) (s : State) : Ports :=
  let rd1 := s.readReg d.rs1
  let rd2 := s.readReg d.rs2
  let a := c.aluB.map (fun _ => rd1)
  let b := c.aluB.map (aluBValue d rd2)
  let y := aluPort c.aluOp a b
  let addr := if c.dmRe || c.dmWe then y else none
  let rdata := if c.dmRe then addr.bind s.dmem.readWord else none
  { rfRa1 := d.rs1, rfRa2 := d.rs2, rfRd1 := rd1, rfRd2 := rd2
    aluA := a, aluB := b, aluOp := c.aluOp, aluY := y
    dmAddr := addr
    dmRe := c.dmRe, dmRdata := rdata
    dmWe := c.dmWe, dmWdata := if c.dmWe then some rd2 else none
    dmOow := addr.any (fun x => !inWindow x)
    rfWe := c.rfWe, rfWa := d.rd
    rfWd := match c.writeBack with
      | some .aluY => y
      | some .dmRdata => rdata
      | none => none }

/-- The Data Store after the cycle: written where `dm_we` is driven. -/
def commitData (p : Ports) (m : Memory) : Memory :=
  match p.dmWe, p.dmAddr, p.dmWdata with
  | true, some a, some v => m.putWord a.toNat v
  | _, _, _ => m

/-- The Register File after the cycle: written where `rf_we` is driven. -/
def commitRegister (p : Ports) (s : State) : State :=
  match p.rfWe, p.rfWd with
  | true, some v => s.writeReg p.rfWa v
  | _, _ => s

/-- The next pc and the two counters (40_datapath_cycle.md R129, R130). -/
def commitEngine (c : Control) (s : State) : State :=
  { s with
    pc := if c.pcNext = .plus4 then s.pc + 4 else s.pc
    haltPending := s.haltPending || c.setHaltPending
    cycles := s.cycles + 1
    instrs := if c.setHaltPending then s.instrs else s.instrs + 1 }

/-- Steps 4 to 7 of a cycle that fetched `w`, driven by the control table and the ports alone. -/
def datapath (w : Word) (s : State) : Host.Outcome State Fault Refusal :=
  let d := decodeRecord w
  let c := controlTable d.kind s.unknownOpcodePolicy
  let p := ports d c s
  if c.pcNext = .fault then raise (.unknownOpcode w) s
  else
    match p.dmOow, p.dmAddr with
    | true, some a => if c.dmWe then raise (.storeOutOfWindow a w) s else raise (.loadOutOfWindow a w) s
    | _, _ => .next (commitEngine c (commitRegister p { s with dmem := commitData p s.dmem }))

end Sys2Proof.Machine
end

