-- ==== Sys2Proof/Machine/Launch.lean ====
section
/-! DEFINITION. Construction (10_state.md R39, 20_memory.md R77, R79, 70_reset_and_hazards.md R230 to R233): the two images, the bytes a short image leaves open, and the load failure. -/

namespace Sys2Proof.Machine

/-- Why the core is never constructed (60_exceptions.md R200, 70_reset_and_hazards.md R233). No step raises it. -/
inductive LoadFailure where
  /-- A source that is not there (60_exceptions.md R200, 70_reset_and_hazards.md R233). -/
  | missing
  /-- An image of more than `MEM_SIZE` bytes (92_eei_decisions.md D8). -/
  | tooLong
  /-- A line that is not exactly eight characters of `0` and `1` (20_memory.md R78, R79). -/
  | malformedLine
deriving DecidableEq, Repr

/-- The bytes placed from address `n` up, byte by byte, in canonical form. -/
def Memory.ofBytes : Nat → List Byte → Memory
  | _, [] => []
  | n, b :: rest => Memory.cons n b (Memory.ofBytes (n + 1) rest)

/-- The whole window: byte `i` of the image at address `i`, and the open byte `pad a` at each address `a` the image does not
reach (20_memory.md R77, R79, 92_eei_decisions.md D7). -/
def fillImage (image : List Byte) (pad : Nat → Byte) : List Byte :=
  image ++ (List.range (memSize - image.length)).map (fun k => pad (image.length + k))

/-- `load(bytes)`: the contents of a store, or a load failure (20_memory.md R77, R79). -/
def loadImage (image : List Byte) (pad : Nat → Byte) : Except LoadFailure Memory :=
  if image.length ≤ memSize then .ok (Memory.ofBytes 0 (fillImage image pad)) else .error .tooLong

/-- The core built from its two images: every other piece of state at its value after construction
(70_reset_and_hazards.md R230); construction is the only reset (R231). -/
def State.construct (policy : UnknownOpcodePolicy) (imemImage : List Byte) (imemPad : Nat → Byte)
    (dmemImage : List Byte) (dmemPad : Nat → Byte) : Except LoadFailure State :=
  match loadImage imemImage imemPad, loadImage dmemImage dmemPad with
  | .ok imem, .ok dmem => .ok { State.reset with imem := imem, dmem := dmem, unknownOpcodePolicy := policy }
  | .error e, _ => .error e
  | .ok _, .error e => .error e

end Sys2Proof.Machine
end

