-- ==== Sys2Proof/Machine/Outputs.lean ====
section
/-! DEFINITION. What the CORE shows of a cycle (10_state.md R25, R37, R40, 40_datapath_cycle.md R132 to R134) and of a run
(R135, R138). None of it is state (10_state.md R41): each is a function of the state before and after a step. -/

namespace Sys2Proof.Machine

/-- `rf_snapshot`: x0 to x31 in index order (10_state.md R25). -/
def State.registerSnapshot (s : State) : List Word :=
  (List.range 32).map (fun i => s.readReg (BitVec.ofNat 5 i))

/-- `dm_snapshot`: the full window, one Byte per entry, in address order (10_state.md R37). -/
def State.dataSnapshot (s : State) : List Byte := (List.range memSize).map s.dmem.read

/-- The trace record (40_datapath_cycle.md R133). -/
structure TraceRecord where
  cycle : Nat
  pc    : Word
  nop   : Bool
deriving DecidableEq, Repr

/-- The trace record of a cycle labelled `label` that ended in `t` (40_datapath_cycle.md R133). -/
def traceOf (label : Nat) (t : State) : TraceRecord := { cycle := label, pc := t.pc, nop := t.haltPending }

/-- `diag_unknown_opcode`: true iff this cycle decoded an undefined opcode (10_state.md R40), whether it then goes on under NOP
(60_exceptions.md R206) or faults under FAULT (log entry 10). -/
def State.diagUnknownOpcode (s : State) : Bool :=
  match s.mode, s.haltPending, s.fetch with
  | .running, false, some w => (decode w).kind = .undefined
  | _, _, _ => false

/-- The top-level outputs of one step (10_state.md R40). A completing cycle emits its trace record with the snapshots; a
faulting cycle emits the fault record instead (40_datapath_cycle.md R132); a step while HALTED emits neither (R128). -/
structure Outputs where
  halted            : Bool
  fault             : Option FaultRecord
  trace             : Option TraceRecord
  registerSnapshot  : List Word
  dataSnapshot      : List Byte
  diagUnknownOpcode : Bool
  cycles            : Nat
  instrs            : Nat
deriving DecidableEq, Repr

/-- The outputs read from the state `t` after a step. -/
def outputsOf (t : State) (fault : Option FaultRecord) (trace : Option TraceRecord) (diag : Bool) : Outputs where
  halted := t.isHalted
  fault := fault
  trace := trace
  registerSnapshot := t.registerSnapshot
  dataSnapshot := t.dataSnapshot
  diagUnknownOpcode := diag
  cycles := t.cycles
  instrs := t.instrs

/-- One step with what it shows: the state after it and its outputs. A fault leaves the state as it was before the cycle
(60_exceptions.md R201, R203). No step is refused: every Word decodes and every arm of `exec` has its meaning. -/
def cycle (s : State) : State × Outputs :=
  match step s with
  | .next t =>
    (t, outputsOf t none (if s.isHalted then none else some (traceOf s.cycles t)) s.diagUnknownOpcode)
  | .fault f => (s, outputsOf s (some f.record) none s.diagUnknownOpcode)
  | .refused _ => (s, outputsOf s none none s.diagUnknownOpcode)

/-! ## A run (40_datapath_cycle.md R135) -/

/-- `n` steps, stopping at the first fault: no step is defined from a faulted machine (60_exceptions.md R201). -/
def stepN : Nat → State → Host.Outcome State Fault Refusal
  | 0, s => .next s
  | n + 1, s =>
    match step s with
    | .next t => stepN n t
    | .fault f => .fault f
    | .refused r => .refused r

/-- How a run stands after the driver has stopped stepping. -/
inductive RunResult where
  /-- (a) A step returned with `halted`: the result is the state then. -/
  | final (s : State)
  /-- (b) A step faulted: the run is aborted, with the fault record and the state before the faulting cycle. -/
  | aborted (record : FaultRecord) (s : State)
  /-- The driver has not yet seen either (it stopped after the steps it was given). -/
  | unfinished (s : State)
deriving DecidableEq, Repr

/-- The driver: steps until the machine reports halted or a step faults, at most `fuel` times. -/
def drive : Nat → State → RunResult
  | 0, s => .unfinished s
  | fuel + 1, s =>
    match step s with
    | .next t => if t.isHalted then .final t else drive fuel t
    | .fault f => .aborted f.record s
    | .refused _ => .unfinished s

/-- The trace records the run emits, in order (40_datapath_cycle.md R132). -/
def driveTrace : Nat → State → List TraceRecord
  | 0, _ => []
  | fuel + 1, s =>
    match step s with
    | .next t =>
      if s.isHalted then [] else traceOf s.cycles t :: (if t.isHalted then [] else driveTrace fuel t)
    | .fault _ => []
    | .refused _ => []

/-- The run summary (40_datapath_cycle.md R138): `cpi` is the exact rational, none for the sentinel `undefined`. -/
structure RunSummary where
  totalCycles       : Nat
  totalInstructions : Nat
  cpi               : Option Rat
deriving DecidableEq, Repr

/-- The summary of a run that ended in `s` (40_datapath_cycle.md R138). -/
def summary (s : State) : RunSummary where
  totalCycles := s.cycles
  totalInstructions := s.instrs
  cpi := if s.instrs = 0 then none else some ((s.cycles : Rat) / (s.instrs : Rat))

end Sys2Proof.Machine
end

