-- ==== Sys2Proof/Machine/Text.lean ====
section
/-! DEFINITION. The text forms the external collaborator reads and writes (20_memory.md R78, 40_datapath_cycle.md R133). They
are outside the core (00_scope.md R7): nothing of `step` uses them. A line is its list of characters. -/

namespace Sys2Proof.Machine

/-- The binary text of a value, most significant bit first (20_memory.md R78, 92_eei_decisions.md D17). -/
def bitLine (n : Nat) (v : BitVec n) : List Char := (List.range n).map (fun i => if v.getMsbD i then '1' else '0')

/-- One Byte: a line of 8 characters (20_memory.md R78). -/
def byteLine (b : Byte) : List Char := bitLine 8 b

/-- One register: a line of 32 characters (40_datapath_cycle.md R133). -/
def wordLine (w : Word) : List Char := bitLine 32 w

/-- The number a line of `0` and `1` spells, most significant first, or none where another character stands in it. -/
def bitsValue : List Char → Nat → Option Nat
  | [], acc => some acc
  | '0' :: rest, acc => bitsValue rest (2 * acc)
  | '1' :: rest, acc => bitsValue rest (2 * acc + 1)
  | _ :: _, _ => none

/-- A Byte from its line: exactly eight characters of `0` and `1` (20_memory.md R78, R79). -/
def parseByteLine (line : List Char) : Except LoadFailure Byte :=
  if line.length = 8 then
    match bitsValue line 0 with
    | some v => .ok (BitVec.ofNat 8 v)
    | none => .error .malformedLine
  else .error .malformedLine

/-- The bytes of an image, one line each, or the load failure of its first bad line (70_reset_and_hazards.md R233). -/
def parseLines : List (List Char) → Except LoadFailure (List Byte)
  | [] => .ok []
  | line :: rest =>
    match parseByteLine line, parseLines rest with
    | .ok b, .ok bytes => .ok (b :: bytes)
    | .error e, _ => .error e
    | .ok _, .error e => .error e

/-- An image from its lines; more than `MEM_SIZE` of them is a load failure (20_memory.md R79). -/
def parseImage (lines : List (List Char)) : Except LoadFailure (List Byte) :=
  if lines.length ≤ memSize then parseLines lines else .error .tooLong

/-- An image from its source: its lines, or none where the source is missing, a load failure (60_exceptions.md R200,
70_reset_and_hazards.md R233). -/
def readSource : Option (List (List Char)) → Except LoadFailure (List Byte)
  | none => .error .missing
  | some lines => parseImage lines

/-- The core launched from its two image sources (70_reset_and_hazards.md R232, R233): both are required. -/
def launch (policy : UnknownOpcodePolicy) (imemSource : Option (List (List Char))) (imemPad : Nat → Byte)
    (dmemSource : Option (List (List Char))) (dmemPad : Nat → Byte) : Except LoadFailure State :=
  match readSource imemSource, readSource dmemSource with
  | .ok imem, .ok dmem => State.construct policy imem imemPad dmem dmemPad
  | .error e, _ => .error e
  | .ok _, .error e => .error e

/-- The data snapshot file: one line per Byte, in address order (20_memory.md R78). -/
def dataSnapshotText (s : State) : List (List Char) := s.dataSnapshot.map byteLine

/-- The register snapshot file: a label that identifies the cycle, then 32 register lines (40_datapath_cycle.md R133). -/
structure RegisterSnapshotText where
  label : Nat
  lines : List (List Char)
deriving DecidableEq, Repr

/-- The register snapshot of the cycle labelled `label` that ended in `t`. -/
def registerSnapshotText (label : Nat) (t : State) : RegisterSnapshotText :=
  { label := label, lines := t.registerSnapshot.map wordLine }

end Sys2Proof.Machine
end

