-- ==== Sys2Proof/Safety.lean ====
section
/-! DEFINITION. What counts as a sound state and an unchanged piece of it, in the words the statements use. -/

namespace Sys2Proof.Machine

/-- The cycles a halting run has spent without an instruction: the HALT decode cycle, then the drain cycle
(40_datapath_cycle.md R130, R131). -/
def State.haltCycles (s : State) : Nat :=
  (if s.haltPending then 1 else 0) + (if s.isHalted then 1 else 0)

/-- The invariant of the machine: both stores are canonical, the pc counts the instructions and stays in the window until
the last fetch faults (10_state.md R28, R34), only a pending HALT drains into HALTED (R30, R31), and the counters agree
(R32, 40_datapath_cycle.md R130, R131). -/
structure State.Inv (s : State) : Prop where
  imemCanonical : s.imem.wf = true
  dmemCanonical : s.dmem.wf = true
  pcCountsInstrs : s.pc.toNat = 4 * s.instrs
  instrsInWindow : s.instrs ≤ 250
  haltInWindow : s.haltPending = true → s.instrs ≤ 249
  haltedWasPending : s.mode = .halted → s.haltPending = true
  cyclesCountInstrs : s.cycles = s.instrs + s.haltCycles

/-- The engine takes a fetch cycle: RUNNING with no HALT pending (40_datapath_cycle.md R120). -/
structure State.Fetching (s : State) : Prop where
  running : s.mode = .running
  noHaltPending : s.haltPending = false

/-- Every register reads as before, but for `rd`. -/
def RegsKeptExcept (rd : RegIdx) (s t : State) : Prop := ∀ r, r ≠ rd → t.readReg r = s.readReg r

/-- Every register reads as before. -/
def RegsKept (s t : State) : Prop := ∀ r, t.readReg r = s.readReg r

/-- Every byte of the Data Store reads as before. -/
def DataKept (s t : State) : Prop := ∀ a, t.dmem.read a = s.dmem.read a

/-- Every byte of the Data Store outside the four at `n` reads as before. -/
def DataKeptOutsideWord (n : Nat) (s t : State) : Prop := ∀ a, (a < n ∨ n + 4 ≤ a) → t.dmem.read a = s.dmem.read a

/-- Every byte of the Instruction Store reads as before, and the launch parameter is the same. -/
def LaunchKept (s t : State) : Prop :=
  (∀ a, t.imem.read a = s.imem.read a) ∧ t.unknownOpcodePolicy = s.unknownOpcodePolicy

/-- What every completing cycle of a real instruction does to the engine: pc on by 4, both counters on by 1, no flag changed
(40_datapath_cycle.md R129, R130). -/
structure Retired (s t : State) : Prop where
  pc : t.pc = s.pc + 4
  cycles : t.cycles = s.cycles + 1
  instrs : t.instrs = s.instrs + 1
  mode : t.mode = s.mode
  haltPending : t.haltPending = s.haltPending

/-- The registers an instruction reads (10_state.md R23). -/
def readsOf : Instr → List RegIdx
  | .lw _ rs1 _ _ => [rs1]
  | .addi _ rs1 _ _ => [rs1]
  | .sw rs2 rs1 _ _ => [rs1, rs2]
  | .sub _ rs1 rs2 _ => [rs1, rs2]
  | .add _ rs1 rs2 _ _ => [rs1, rs2]
  | .halt _ => []
  | .undefined _ _ => []

/-- The register an instruction writes, if any (10_state.md R23). -/
def writesOf : Instr → Option RegIdx
  | .lw rd _ _ _ => some rd
  | .addi rd _ _ _ => some rd
  | .sw _ _ _ _ => none
  | .sub rd _ _ _ => some rd
  | .add rd _ _ _ _ => some rd
  | .halt _ => none
  | .undefined _ _ => none

/-- The state with its two counters forgotten. -/
def State.forgetCounters (s : State) : State := { s with cycles := 0, instrs := 0 }

/-- Two states that differ in their counters at most. -/
def SameButCounters (s t : State) : Prop := s.forgetCounters = t.forgetCounters

/-- An image text the collaborator accepts: at most `MEM_SIZE` lines, each exactly eight characters of `0` and `1`
(20_memory.md R79, 70_reset_and_hazards.md R233). -/
def ImageTextOk (lines : List (List Char)) : Prop :=
  lines.length ≤ 1000 ∧ ∀ line ∈ lines, line.length = 8 ∧ ∀ c ∈ line, c = '0' ∨ c = '1'

/-- Two outcomes that differ in the counters of their state, or in the instruction count of their fault record, at most. -/
def SameOutcomeButCounters : Host.Outcome State Fault Refusal → Host.Outcome State Fault Refusal → Prop
  | .next s, .next t => SameButCounters s t
  | .fault f, .fault g => { f.record with instrs := 0 } = { g.record with instrs := 0 }
  | .refused _, .refused _ => True
  | _, _ => False

end Sys2Proof.Machine
end

