-- ==== Sys2Proof/Certificates/Slice0/Obligations.lean ====
section
/-! DEFINITION. The statements for the provers. Each docstring names the rule of spec/ it comes from. -/

open Sys2Proof Sys2Proof.Machine

/-! ## Encoding -/

/-- Sample words of 95_test_vectors.md 2.1, one or more for each row of the opcode map, decode as its table says. -/
def Obligations.DecodeReadsTheSpecsSampleWords : Prop :=
  decode 0x00002103#32 = .lw 2 0 0 2 ∧
  decode 0xFFF08113#32 = .addi 2 1 0xFFF 0 ∧
  decode 0x00309093#32 = .addi 1 1 3 1 ∧
  decode 0xFE112E23#32 = .sw 1 2 0xFFC 2 ∧
  decode 0x402081B3#32 = .sub 3 1 2 0 ∧
  decode 0x002081B3#32 = .add 3 1 2 0 0 ∧
  decode 0x422081B3#32 = .add 3 1 2 0x21 0 ∧
  decode 0x0020C1B3#32 = .add 3 1 2 0 4 ∧
  (decode 0xFFFFFFFF#32).kind = .halt ∧
  (decode 0x0000007F#32).kind = .halt ∧
  decode 0x00000000#32 = .undefined 0 0 ∧
  decode 0x00000073#32 = .undefined 0x73 0

/-- The decoder reads back every well-formed instruction from its word, every operand at every value (30_encoding.md R92 to
R96). -/
def Obligations.DecodeOfEncodeIsTheInstruction : Prop := ∀ i : Instr, i.wf = true → decode (encode i) = i

/-- Every Word decodes to a well-formed instruction whose encoding is that Word (30_encoding.md R96: decoding is total). -/
def Obligations.EncodeOfDecodeIsTheWord : Prop := ∀ w : Word, (decode w).wf = true ∧ encode (decode w) = w

/-- The fields stand at the bit positions of 30_encoding.md R91 in every word, whatever its opcode. -/
def Obligations.FieldsStandAtTheirFixedPositions : Prop :=
  ∀ w : Word,
    (fieldOpcode w).toNat = w.toNat % 2 ^ 7 ∧
    (decodeRecord w).rd.toNat = w.toNat / 2 ^ 7 % 2 ^ 5 ∧
    (decodeRecord w).rs1.toNat = w.toNat / 2 ^ 15 % 2 ^ 5 ∧
    (decodeRecord w).rs2.toNat = w.toNat / 2 ^ 20 % 2 ^ 5 ∧
    (fieldFunct7 w).toNat = w.toNat / 2 ^ 25 ∧
    (fieldImmI w).toNat = w.toNat / 2 ^ 20 ∧
    (fieldImmS w).toNat = w.toNat / 2 ^ 25 * 2 ^ 5 + w.toNat / 2 ^ 7 % 2 ^ 5

/-- The typed instruction holds exactly what the decoded record of 30_encoding.md R96 holds for its kind. -/
def Obligations.DecodeHoldsTheDecodedRecord : Prop :=
  ∀ w : Word,
    match decode w with
    | .lw rd rs1 imm _ =>
      (decodeRecord w).kind = .lw ∧ (decodeRecord w).rd = rd ∧ (decodeRecord w).rs1 = rs1 ∧
        (decodeRecord w).immI = imm.signExtend 32
    | .addi rd rs1 imm _ =>
      (decodeRecord w).kind = .addi ∧ (decodeRecord w).rd = rd ∧ (decodeRecord w).rs1 = rs1 ∧
        (decodeRecord w).immI = imm.signExtend 32
    | .sw rs2 rs1 imm _ =>
      (decodeRecord w).kind = .sw ∧ (decodeRecord w).rs2 = rs2 ∧ (decodeRecord w).rs1 = rs1 ∧
        (decodeRecord w).immS = imm.signExtend 32
    | .sub rd rs1 rs2 _ =>
      (decodeRecord w).kind = .sub ∧ (decodeRecord w).rd = rd ∧ (decodeRecord w).rs1 = rs1 ∧ (decodeRecord w).rs2 = rs2
    | .add rd rs1 rs2 funct7 _ =>
      (decodeRecord w).kind = .add ∧ (decodeRecord w).rd = rd ∧ (decodeRecord w).rs1 = rs1 ∧ (decodeRecord w).rs2 = rs2 ∧
        funct7 ≠ 0x20#7
    | .halt _ => (decodeRecord w).kind = .halt
    | .undefined opcode _ => (decodeRecord w).kind = .undefined ∧ opcode.toNat ∉ [0x03, 0x13, 0x23, 0x33, 0x7F]

/-- The decoder is the one built from the table in matching order, SUB before ADD, and no word matches two other rows
(30_encoding.md R102, the spec's own inference from R96 and R101). -/
def Obligations.TheTableInMatchingOrderDecidesTheKind : Prop :=
  (∀ w : Word, (decode w).kind = tableKind w opcodeTable) ∧
  (∀ w : Word, ∀ r ∈ opcodeTable, ∀ r' ∈ opcodeTable,
    w &&& r.mask = r.pattern → w &&& r'.mask = r'.pattern →
      r.kind = r'.kind ∨ ((r.kind = .sub ∨ r.kind = .add) ∧ (r'.kind = .sub ∨ r'.kind = .add)))

/-- Both immediates are their 12 bits, sign-extended from bit 11 (30_encoding.md R98, R99). -/
def Obligations.ImmediatesAreSignExtendedFromBitEleven : Prop :=
  ∀ w : Word,
    (decodeRecord w).immI.extractLsb' 0 12 = w.extractLsb' 20 12 ∧
    (w.getLsbD 31 = true → (decodeRecord w).immI.extractLsb' 12 20 = BitVec.allOnes 20) ∧
    (w.getLsbD 31 = false → (decodeRecord w).immI.extractLsb' 12 20 = 0#20) ∧
    (decodeRecord w).immI.toInt = (w.extractLsb' 20 12).toInt ∧
    -2048 ≤ (decodeRecord w).immI.toInt ∧ (decodeRecord w).immI.toInt ≤ 2047 ∧
    (decodeRecord w).immS.extractLsb' 0 5 = w.extractLsb' 7 5 ∧
    (decodeRecord w).immS.extractLsb' 5 7 = w.extractLsb' 25 7 ∧
    (w.getLsbD 31 = true → (decodeRecord w).immS.extractLsb' 12 20 = BitVec.allOnes 20) ∧
    (w.getLsbD 31 = false → (decodeRecord w).immS.extractLsb' 12 20 = 0#20) ∧
    -2048 ≤ (decodeRecord w).immS.toInt ∧ (decodeRecord w).immS.toInt ≤ 2047

/-- The bits the decoder does not read change no next state (30_encoding.md R95, R97): bits 14:12 of any word, the funct7 of
ADD, bits 31:7 of HALT and of an undefined opcode. R97 is the spec's own inference from R91 and R101. -/
def Obligations.BitsTheDecoderIgnoresChangeNoNextState : Prop :=
  (∀ (w w' : Word) (s t : State), w &&& 0xFFFF8FFF#32 = w' &&& 0xFFFF8FFF#32 →
    exec (decode w) s = .next t → exec (decode w') s = .next t) ∧
  (∀ (w w' : Word) (s t : State), fieldOpcode w = 0x33#7 → fieldFunct7 w ≠ 0x20#7 → fieldFunct7 w' ≠ 0x20#7 →
    w &&& 0x01FFFFFF#32 = w' &&& 0x01FFFFFF#32 → exec (decode w) s = .next t → exec (decode w') s = .next t) ∧
  (∀ (w w' : Word) (s t : State), fieldOpcode w = 0x7F#7 → fieldOpcode w' = 0x7F#7 →
    exec (decode w) s = .next t → exec (decode w') s = .next t) ∧
  (∀ (w w' : Word) (s t : State), (decode w).kind = .undefined → (decode w').kind = .undefined →
    exec (decode w) s = .next t → exec (decode w') s = .next t)

/-! ## The instructions -/

/-- The register primitives: a read of register 0 gives 0 and a write to it does nothing; a write to any other register
changes that register and nothing else (00_scope.md R12). -/
def Obligations.RegisterPrimitivesHardwireRegisterZero : Prop :=
  ∀ (s : State) (i j : RegIdx) (v : Word),
    s.readReg 0#5 = 0 ∧ s.writeReg 0#5 v = s ∧
    (s.writeReg i v).readReg j = (if j = 0#5 then 0 else if j = i then v else s.readReg j) ∧
    { s.writeReg i v with regs := s.regs } = s

/-- LW at an address in the window completes: the destination holds the big-endian Word at base plus offset (0 for x0), and
everything else but the pc and the counters is unchanged (41_load.md R141), at any alignment (20_memory.md R63). -/
def Obligations.LwLoadsTheWordAtBasePlusOffset : Prop :=
  ∀ (rd rs1 : RegIdx) (imm : Imm12) (ignored : BitVec 3) (s : State),
    (effectiveAddress s rs1 imm).toNat ≤ 996 →
    ∃ t, exec (.lw rd rs1 imm ignored) s = .next t ∧
      effectiveAddress s rs1 imm = s.readReg rs1 + imm.signExtend 32 ∧
      t.readReg rd = (if rd = 0#5 then 0 else
        s.dmem.read (effectiveAddress s rs1 imm).toNat ++ s.dmem.read ((effectiveAddress s rs1 imm).toNat + 1) ++
          s.dmem.read ((effectiveAddress s rs1 imm).toNat + 2) ++ s.dmem.read ((effectiveAddress s rs1 imm).toNat + 3)) ∧
      RegsKeptExcept rd s t ∧ DataKept s t ∧ LaunchKept s t ∧ Retired s t

/-- ADDI completes in every state: the destination holds the source plus the sign-extended immediate, modulo 2^32 (0 for x0),
and everything else but the pc and the counters is unchanged (42_imm_arith.md R151). -/
def Obligations.AddiAddsTheSignExtendedImmediate : Prop :=
  ∀ (rd rs1 : RegIdx) (imm : Imm12) (ignored : BitVec 3) (s : State),
    ∃ t, exec (.addi rd rs1 imm ignored) s = .next t ∧
      (t.readReg rd).toNat = (if rd = 0#5 then 0 else
        ((s.readReg rs1).toNat + (if imm.getLsbD 11 = true then 0xFFFFF000 + imm.toNat else imm.toNat)) % 2 ^ 32) ∧
      RegsKeptExcept rd s t ∧ DataKept s t ∧ LaunchKept s t ∧ Retired s t

/-- SW at an address in the window completes: the four bytes at base plus offset hold the source register, most significant
first, and every other byte, every register and the Instruction Store are unchanged (43_store.md R161). -/
def Obligations.SwStoresTheWordAtBasePlusOffset : Prop :=
  ∀ (rs2 rs1 : RegIdx) (imm : Imm12) (ignored : BitVec 3) (s : State),
    s.dmem.wf = true → (effectiveAddress s rs1 imm).toNat ≤ 996 →
    ∃ t, exec (.sw rs2 rs1 imm ignored) s = .next t ∧
      effectiveAddress s rs1 imm = s.readReg rs1 + imm.signExtend 32 ∧
      t.dmem.read (effectiveAddress s rs1 imm).toNat = (s.readReg rs2).extractLsb' 24 8 ∧
      t.dmem.read ((effectiveAddress s rs1 imm).toNat + 1) = (s.readReg rs2).extractLsb' 16 8 ∧
      t.dmem.read ((effectiveAddress s rs1 imm).toNat + 2) = (s.readReg rs2).extractLsb' 8 8 ∧
      t.dmem.read ((effectiveAddress s rs1 imm).toNat + 3) = (s.readReg rs2).extractLsb' 0 8 ∧
      DataKeptOutsideWord (effectiveAddress s rs1 imm).toNat s t ∧ RegsKept s t ∧ LaunchKept s t ∧ Retired s t

/-- SUB and ADD complete in every state: the destination holds the difference or the sum of the two sources (0 for x0),
whatever the funct7 of ADD, and everything else but the pc and the counters is unchanged (44_reg_arith.md R170, R171). -/
def Obligations.SubAndAddWriteTheDifferenceAndTheSum : Prop :=
  ∀ (rd rs1 rs2 : RegIdx) (funct7 : BitVec 7) (ignored : BitVec 3) (s : State),
    (∃ t, exec (.sub rd rs1 rs2 ignored) s = .next t ∧
      t.readReg rd = (if rd = 0#5 then 0 else s.readReg rs1 - s.readReg rs2) ∧
      RegsKeptExcept rd s t ∧ DataKept s t ∧ LaunchKept s t ∧ Retired s t) ∧
    (∃ t, exec (.add rd rs1 rs2 funct7 ignored) s = .next t ∧
      t.readReg rd = (if rd = 0#5 then 0 else s.readReg rs1 + s.readReg rs2) ∧
      RegsKeptExcept rd s t ∧ DataKept s t ∧ LaunchKept s t ∧ Retired s t)

/-- Subtraction is selected by the whole funct7, not by bit 30: a word of opcode 0x33 subtracts iff its funct7 is 0x20, and
otherwise adds (44_reg_arith.md R172). -/
def Obligations.TheWholeFunct7SelectsSubtraction : Prop :=
  ∀ (w : Word) (s : State), fieldOpcode w = 0x33#7 → (decodeRecord w).rd ≠ 0#5 →
    ∃ t, exec (decode w) s = .next t ∧
      t.readReg (decodeRecord w).rd =
        (if fieldFunct7 w = 0x20#7 then s.readReg (decodeRecord w).rs1 - s.readReg (decodeRecord w).rs2
         else s.readReg (decodeRecord w).rs1 + s.readReg (decodeRecord w).rs2)

/-- Every result and every effective address is the sum or difference modulo 2^32, under the unsigned and under the
two's-complement reading of the same bits (44_reg_arith.md R173). -/
def Obligations.ArithmeticWrapsUnderBothReadings : Prop :=
  ∀ (rd rs1 rs2 : RegIdx) (imm : Imm12) (funct7 : BitVec 7) (ignored : BitVec 3) (s : State), rd ≠ 0#5 →
    (∃ t, exec (.add rd rs1 rs2 funct7 ignored) s = .next t ∧
      (t.readReg rd).toNat = ((s.readReg rs1).toNat + (s.readReg rs2).toNat) % 2 ^ 32 ∧
      (t.readReg rd).toInt = ((s.readReg rs1).toInt + (s.readReg rs2).toInt).bmod (2 ^ 32)) ∧
    (∃ t, exec (.sub rd rs1 rs2 ignored) s = .next t ∧
      ((t.readReg rd).toNat : Int) = ((s.readReg rs1).toNat - (s.readReg rs2).toNat : Int) % 2 ^ 32 ∧
      (t.readReg rd).toInt = ((s.readReg rs1).toInt - (s.readReg rs2).toInt).bmod (2 ^ 32)) ∧
    (∃ t, exec (.addi rd rs1 imm ignored) s = .next t ∧
      (t.readReg rd).toNat = ((s.readReg rs1).toNat + (imm.signExtend 32).toNat) % 2 ^ 32 ∧
      (t.readReg rd).toInt = ((s.readReg rs1).toInt + imm.toInt).bmod (2 ^ 32)) ∧
    (effectiveAddress s rs1 imm).toNat = ((s.readReg rs1).toNat + (imm.signExtend 32).toNat) % 2 ^ 32 ∧
    (effectiveAddress s rs1 imm).toInt = ((s.readReg rs1).toInt + imm.toInt).bmod (2 ^ 32)

/-- HALT completes in every state: `halt_pending` is set, one cycle counts, and nothing else changes: not the pc, not the
instruction count, not x31 (45_halt_and_undefined.md R180). -/
def Obligations.HaltSetsThePendingFlagAndFreezesThePc : Prop :=
  ∀ (ignored : BitVec 25) (s : State),
    exec (.halt ignored) s = .next { s with haltPending := true, cycles := s.cycles + 1 }

/-- An undefined opcode under policy NOP completes as a counted no-op that advances the pc, and under policy FAULT raises
`UnknownOpcode` (45_halt_and_undefined.md R182). The two values of the policy are the spec's OPEN parameter D5; that the no-op
counts as an instruction is the spec's own choice D6 (log entry 11). -/
def Obligations.UndefinedOpcodeIsANoOpOrAFaultByPolicy : Prop :=
  ∀ (opcode : BitVec 7) (ignored : BitVec 25) (s : State),
    (s.unknownOpcodePolicy = .nop →
      exec (.undefined opcode ignored) s =
        .next { s with pc := s.pc + 4, cycles := s.cycles + 1, instrs := s.instrs + 1 }) ∧
    (s.unknownOpcodePolicy = .fault →
      exec (.undefined opcode ignored) s = .fault (.unknownOpcode (encode (.undefined opcode ignored)) s.pc s.instrs))

/-- With x0 as the destination ADDI, ADD and SUB change only the pc and the counters, and LW still reads and still faults out
of the window (30_encoding.md R106, the spec's own inference). -/
def Obligations.ResultsForRegisterZeroAreDiscarded : Prop :=
  ∀ (rs1 rs2 : RegIdx) (imm : Imm12) (funct7 : BitVec 7) (ignored : BitVec 3) (s : State),
    exec (.addi 0 rs1 imm ignored) s = .next { s with pc := s.pc + 4, cycles := s.cycles + 1, instrs := s.instrs + 1 } ∧
    exec (.add 0 rs1 rs2 funct7 ignored) s =
      .next { s with pc := s.pc + 4, cycles := s.cycles + 1, instrs := s.instrs + 1 } ∧
    exec (.sub 0 rs1 rs2 ignored) s = .next { s with pc := s.pc + 4, cycles := s.cycles + 1, instrs := s.instrs + 1 } ∧
    ((effectiveAddress s rs1 imm).toNat ≤ 996 →
      exec (.lw 0 rs1 imm ignored) s =
        .next { s with pc := s.pc + 4, cycles := s.cycles + 1, instrs := s.instrs + 1 }) ∧
    (996 < (effectiveAddress s rs1 imm).toNat → ∃ f, exec (.lw 0 rs1 imm ignored) s = .fault f)

/-- LW and SW fault exactly where one of the four bytes is outside 0 to 999, in integer arithmetic, and the record holds the
store, the access and the address (20_memory.md R65, 41_load.md R140, 43_store.md R160). No alignment enters (R63). The integer arithmetic is
the spec's own choice D16, the record's content and codes its choice D4 (log entry 11). -/
def Obligations.DataAccessesFaultExactlyOutsideTheWindow : Prop :=
  ∀ (r rs1 : RegIdx) (imm : Imm12) (ignored : BitVec 3) (s : State),
    ((∃ t, exec (.lw r rs1 imm ignored) s = .next t) ↔ ∀ k < 4, (effectiveAddress s rs1 imm).toNat + k ≤ 999) ∧
    ((∃ t, exec (.sw r rs1 imm ignored) s = .next t) ↔ ∀ k < 4, (effectiveAddress s rs1 imm).toNat + k ≤ 999) ∧
    (996 < (effectiveAddress s rs1 imm).toNat →
      (∃ f, exec (.lw r rs1 imm ignored) s = .fault f ∧
        f.record = ⟨2, .outOfWindow, some .dmem, some .load, effectiveAddress s rs1 imm, s.pc,
          some (encode (.lw r rs1 imm ignored)), s.instrs⟩) ∧
      (∃ f, exec (.sw r rs1 imm ignored) s = .fault f ∧
        f.record = ⟨3, .outOfWindow, some .dmem, some .store, effectiveAddress s rs1 imm, s.pc,
          some (encode (.sw r rs1 imm ignored)), s.instrs⟩))

/-- Round trip: a Word stored by SW in the window and then loaded by LW from the same address comes back exactly
(20_memory.md R69). -/
def Obligations.AStoredWordLoadsBackExactly : Prop :=
  ∀ (rs2 rs1 : RegIdx) (imm : Imm12) (ignored : BitVec 3) (rd base : RegIdx) (offset : Imm12) (ignored' : BitVec 3)
    (s : State), s.dmem.wf = true → (effectiveAddress s rs1 imm).toNat ≤ 996 →
    effectiveAddress s base offset = effectiveAddress s rs1 imm → rd ≠ 0#5 →
    ∃ t u, exec (.sw rs2 rs1 imm ignored) s = .next t ∧ exec (.lw rd base offset ignored') t = .next u ∧
      u.readReg rd = s.readReg rs2

/-- A load after a store returns, for each of its four bytes, the byte the store left there if the store covered that address
and the earlier content otherwise (20_memory.md R70, the spec's own derivation). -/
def Obligations.ALoadAfterAStoreReadsByteByByte : Prop :=
  ∀ (rs2 rs1 : RegIdx) (imm : Imm12) (ignored : BitVec 3) (rd base : RegIdx) (offset : Imm12) (ignored' : BitVec 3)
    (s : State), s.dmem.wf = true → (effectiveAddress s rs1 imm).toNat ≤ 996 →
    (effectiveAddress s base offset).toNat ≤ 996 → rd ≠ 0#5 →
    ∃ t u, exec (.sw rs2 rs1 imm ignored) s = .next t ∧ exec (.lw rd base offset ignored') t = .next u ∧
      (∀ k < 4, byteOfWord (u.readReg rd) k =
        (if (effectiveAddress s rs1 imm).toNat ≤ (effectiveAddress s base offset).toNat + k ∧
            (effectiveAddress s base offset).toNat + k < (effectiveAddress s rs1 imm).toNat + 4 then
          byteOfWord (s.readReg rs2) ((effectiveAddress s base offset).toNat + k - (effectiveAddress s rs1 imm).toNat)
        else s.dmem.read ((effectiveAddress s base offset).toNat + k)))

/-- An instruction reads only the registers 10_state.md R23 names: two states that differ in other registers give the same
result, and those registers stay as each state had them. -/
def Obligations.AnInstructionReadsOnlyItsNamedRegisters : Prop :=
  ∀ (i : Instr) (s : State) (regs : Vector Word 31) (t : State),
    (∀ q ∈ readsOf i, State.readReg { s with regs := regs } q = s.readReg q) → exec i s = .next t →
    ∃ t', exec i { s with regs := regs } = .next t' ∧ { t' with regs := t.regs } = t ∧
      ∀ q, t'.readReg q = (if writesOf i = some q then t.readReg q else State.readReg { s with regs := regs } q)

/-! ## The cycle -/

/-- When the four bytes at the pc decode to an instruction, a fetch cycle is `exec` of it: `step` adds nothing around it
(40_datapath_cycle.md R120, R122 to R124). -/
def Obligations.AStepRunsTheDecodedInstruction : Prop :=
  ∀ (s : State) (i : Instr), s.Fetching → s.pc.toNat ≤ 996 →
    decodeBytes [s.imem.read s.pc.toNat, s.imem.read (s.pc.toNat + 1), s.imem.read (s.pc.toNat + 2),
      s.imem.read (s.pc.toNat + 3)] = .ok (i, []) →
    step s = exec i s

/-- The drain cycle halts the engine, counts one cycle and changes nothing else (40_datapath_cycle.md R121). That it emits a
trace record is the spec's own choice D14 (log entry 11). -/
def Obligations.TheDrainCycleHaltsTheEngine : Prop :=
  ∀ s : State, s.mode = .running → s.haltPending = true →
    step s = .next { s with mode := .halted, cycles := s.cycles + 1 } ∧
    (cycle s).2.trace = some ⟨s.cycles, s.pc, true⟩ ∧ (cycle s).2.fault = none

/-- Any number of steps while HALTED changes nothing, emits no trace record, and stays halted (40_datapath_cycle.md R128). For the
counters and the trace this is the spec's own choice D2 (log entry 11). -/
def Obligations.StepsWhileHaltedChangeNothing : Prop :=
  ∀ (n : Nat) (s : State), s.mode = .halted →
    stepN n s = .next s ∧ cycle s = (s, (cycle s).2) ∧ (cycle s).2.trace = none ∧ (cycle s).2.halted = true ∧
      driveTrace n s = []

/-- A fetch takes the big-endian Word at the pc, and faults exactly when the pc is above 996 (40_datapath_cycle.md R122).
The record's code and content are the spec's own choice D4 (log entry 11). -/
def Obligations.AFetchFaultsExactlyAboveTheLastWord : Prop :=
  ∀ s : State, s.Fetching →
    (996 < s.pc.toNat → ∃ f, step s = .fault f ∧
      f.record = ⟨1, .outOfWindow, some .imem, some .fetch, s.pc, s.pc, none, s.instrs⟩) ∧
    (s.pc.toNat ≤ 996 → step s = exec (decode (s.imem.read s.pc.toNat ++ s.imem.read (s.pc.toNat + 1) ++
      s.imem.read (s.pc.toNat + 2) ++ s.imem.read (s.pc.toNat + 3))) s)

/-- The faults of a step are the four of 60_exceptions.md R204 and no other, each with its record, the fetched word in it.
The record's content and the numbers of the codes are the spec's own choice D4 (log entry 11). -/
def Obligations.TheFourFaultsAndTheirRecords : Prop :=
  ∀ (s : State) (r : FaultRecord),
    (∃ f, step s = .fault f ∧ f.record = r) ↔
      (s.Fetching ∧
        ((996 < s.pc.toNat ∧ r = ⟨1, .outOfWindow, some .imem, some .fetch, s.pc, s.pc, none, s.instrs⟩) ∨
        (∃ w, s.fetch = some w ∧
          (((decodeRecord w).kind = .lw ∧ 996 < (s.readReg (decodeRecord w).rs1 + (decodeRecord w).immI).toNat ∧
            r = ⟨2, .outOfWindow, some .dmem, some .load, s.readReg (decodeRecord w).rs1 + (decodeRecord w).immI, s.pc,
              some w, s.instrs⟩) ∨
          ((decodeRecord w).kind = .sw ∧ 996 < (s.readReg (decodeRecord w).rs1 + (decodeRecord w).immS).toNat ∧
            r = ⟨3, .outOfWindow, some .dmem, some .store, s.readReg (decodeRecord w).rs1 + (decodeRecord w).immS, s.pc,
              some w, s.instrs⟩) ∨
          ((decodeRecord w).kind = .undefined ∧ s.unknownOpcodePolicy = .fault ∧
            r = ⟨4, .unknownOpcode, none, none, s.pc, s.pc, some w, s.instrs⟩)))))

/-- A faulting cycle leaves the state as it was, reports its record, emits no trace record, and is not halted
(60_exceptions.md R201, R203): the spec's own choices D3 and D14 (log entry 11). -/
def Obligations.AFaultingCycleCommitsNothing : Prop :=
  ∀ (s : State) (f : Fault), step s = .fault f →
    (cycle s).1 = s ∧ (cycle s).2.fault = some f.record ∧ (cycle s).2.trace = none ∧ (cycle s).2.halted = false ∧
      ∀ n, stepN (n + 1) s = .fault f

/-- An undefined opcode aborts the run under policy FAULT; under policy NOP it raises nothing, runs as a no-op and asserts
`diag_unknown_opcode` for that cycle (60_exceptions.md R206, under the two values of the
spec's OPEN parameter D5). The record with its code 4, the state a fault leaves and the counting of the no-op are the spec's own
choices D4, D3 and D6 (log entry 11). -/
def Obligations.UnknownOpcodeFollowsThePolicy : Prop :=
  ∀ (s : State) (w : Word), s.Fetching → s.fetch = some w → (decode w).kind = .undefined →
    (s.unknownOpcodePolicy = .fault → (cycle s).1 = s ∧
      (cycle s).2.fault = some ⟨4, .unknownOpcode, none, none, s.pc, s.pc, some w, s.instrs⟩) ∧
    (s.unknownOpcodePolicy = .nop →
      (cycle s).1 = { s with pc := s.pc + 4, cycles := s.cycles + 1, instrs := s.instrs + 1 } ∧
      (cycle s).2.fault = none ∧ (cycle s).2.diagUnknownOpcode = true)

/-- `diag_unknown_opcode` is true iff the cycle decoded an undefined opcode (10_state.md R40). A cycle that completes shows it
exactly for an undefined opcode under NOP (60_exceptions.md R206), and a cycle that faults shows it exactly where the fault is
`UnknownOpcode`. That R40, and not the order of lines in 45_halt_and_undefined.md R182, gives its value on a faulting cycle is the
model's reading (DEDUCED, log entry 10). -/
def Obligations.TheDiagnosticMarksUndefinedOpcodesOnly : Prop :=
  ∀ s : State,
    ((cycle s).2.diagUnknownOpcode = true ↔ s.Fetching ∧ ∃ w, s.fetch = some w ∧ (decode w).kind = .undefined) ∧
    (∀ t, step s = .next t → ((cycle s).2.diagUnknownOpcode = true ↔
      s.Fetching ∧ s.unknownOpcodePolicy = .nop ∧ ∃ w, s.fetch = some w ∧ (decode w).kind = .undefined)) ∧
    (∀ f, step s = .fault f → ((cycle s).2.diagUnknownOpcode = true ↔ f.record.kind = .unknownOpcode))

/-- No step and no instruction is refused: decoding cannot fail and every kind has its behaviour (30_encoding.md R96,
40_datapath_cycle.md R123, R124). -/
def Obligations.NothingIsRefused : Prop :=
  (∀ (i : Instr) (s : State) (r : Refusal), exec i s ≠ .refused r) ∧ ∀ (s : State) (r : Refusal), step s ≠ .refused r

/-- A step moves the pc by 4 exactly when it executes a fetched word that is not HALT, and otherwise leaves it
(40_datapath_cycle.md R129). -/
def Obligations.ThePcMovesByFourExceptOnHaltAndDrain : Prop :=
  ∀ s t : State, step s = .next t →
    (s.Fetching ∧ (∃ w, s.fetch = some w ∧ fieldOpcode w ≠ 0x7F#7) ∧ t.pc = s.pc + 4) ∨
    ((¬ s.Fetching ∨ ∃ w, s.fetch = some w ∧ fieldOpcode w = 0x7F#7) ∧ t.pc = s.pc)

/-- `cycles` counts every completing step but those while HALTED, the drain cycle included; `instrs` counts only executed
words that are not HALT (40_datapath_cycle.md R130). That an undefined opcode counts is the spec's own choice D6, and that
idle steps do not is its choice D2 (log entry 11). -/
def Obligations.TheCountersCountCyclesAndRealInstructions : Prop :=
  ∀ s t : State, step s = .next t →
    (s.mode = .halted → t.cycles = s.cycles ∧ t.instrs = s.instrs) ∧
    (s.mode = .running → t.cycles = s.cycles + 1) ∧
    (s.mode = .running → s.haltPending = true → t.instrs = s.instrs) ∧
    (∀ w, s.Fetching → s.fetch = some w →
      t.instrs = if fieldOpcode w = 0x7F#7 then s.instrs else s.instrs + 1)

/-- The engine has two states and starts RUNNING at pc 0; its only transition is RUNNING to HALTED, taken by the drain cycle,
and HALTED is permanent (10_state.md R30). -/
def Obligations.OnlyTheDrainCycleHalts : Prop :=
  (∀ m : Mode, m = .running ∨ m = .halted) ∧ State.reset.mode = .running ∧ State.reset.pc = 0 ∧
  (∀ s t : State, step s = .next t →
    (t.mode ≠ s.mode ↔ s.mode = .running ∧ s.haltPending = true) ∧
    (t.mode ≠ s.mode → t.mode = .halted) ∧ (s.mode = .halted → t.mode = .halted)) ∧
  ∀ (n : Nat) (s t : State), s.mode = .halted → stepN n s = .next t → t.mode = .halted

/-- `halt_pending` is set by the cycle that decodes HALT and by no other, and is never cleared (10_state.md R31; that it is
never cleared is the spec's own inference there). -/
def Obligations.OnlyHaltSetsThePendingFlag : Prop :=
  ∀ s t : State, step s = .next t →
    (s.haltPending = true → t.haltPending = true) ∧
    (s.haltPending = false →
      (t.haltPending = true ↔ s.Fetching ∧ ∃ w, s.fetch = some w ∧ fieldOpcode w = 0x7F#7))

/-- No run writes the Instruction Store or the launch parameter (10_state.md R36, 20_memory.md R75). -/
def Obligations.TheInstructionStoreIsNeverWritten : Prop :=
  ∀ (n : Nat) (s t : State), stepN n s = .next t →
    t.imem = s.imem ∧ t.unknownOpcodePolicy = s.unknownOpcodePolicy

/-- A step changes at most one register, the destination of an LW, ADDI, ADD or SUB, and never x0 (10_state.md R23,
40_datapath_cycle.md R126). -/
def Obligations.OnlyWriteBackChangesARegister : Prop :=
  ∀ (s t : State) (r : RegIdx), step s = .next t → t.readReg r ≠ s.readReg r →
    s.Fetching ∧ r ≠ 0#5 ∧ ∃ w, s.fetch = some w ∧ r = (decodeRecord w).rd ∧
      ((decodeRecord w).kind = .lw ∨ (decodeRecord w).kind = .addi ∨ (decodeRecord w).kind = .add ∨
        (decodeRecord w).kind = .sub)

/-- A step changes a byte of the Data Store only by SW, and only among the four bytes at its effective address
(10_state.md R37). -/
def Obligations.OnlySwChangesTheDataStore : Prop :=
  ∀ (s t : State) (a : Nat), s.dmem.wf = true → step s = .next t → t.dmem.read a ≠ s.dmem.read a →
    s.Fetching ∧ ∃ w, s.fetch = some w ∧ (decodeRecord w).kind = .sw ∧
      (s.readReg (decodeRecord w).rs1 + (decodeRecord w).immS).toNat ≤ a ∧
      a < (s.readReg (decodeRecord w).rs1 + (decodeRecord w).immS).toNat + 4

/-- Once a HALT is pending no register and no memory byte changes, however many steps follow (40_datapath_cycle.md R137,
the spec's own inference from R121 and R128). -/
def Obligations.NothingIsWrittenOnceAHaltIsPending : Prop :=
  ∀ (n : Nat) (s : State), s.haltPending = true →
    ∃ t, stepN n s = .next t ∧ RegsKept s t ∧ t.dmem = s.dmem ∧ t.pc = s.pc ∧ t.instrs = s.instrs

/-- The placed word is the next one to run, on any state with a canonical Instruction Store (log entry 3). -/
def Obligations.ThePlacedWordRunsNext : Prop :=
  ∀ (s : State) (nbits w : Nat), nbits ≤ 32 → s.imem.wf = true →
    step (s.withFetchWord nbits w) = exec (decode (BitVec.ofNat 32 (w % 2 ^ nbits))) (s.withFetchWord nbits w)

/-! ## Invariants and construction -/

/-- Every step keeps the machine invariant: canonical stores, a pc that counts instructions and stays in the window, counters
that agree (10_state.md R28, R30 to R32, R34). That the pc and the cycles count the instructions rests on the spec's own choices
D6 (an undefined opcode counts) and D2 (an idle step does not), log entry 11; the canonical form of a store is the model's, log
entry 2. -/
def Obligations.EveryStepKeepsTheMachineInvariant : Prop := ∀ s t : State, s.Inv → step s = .next t → t.Inv

/-- The machine invariant holds after reset (70_reset_and_hazards.md R230). The flag and the counters start at the spec's own
choice D9 (log entry 7), and no image byte is listed, the model's choice (log entry 2). -/
def Obligations.ResetMeetsTheMachineInvariant : Prop := State.reset.Inv

/-- Construction sets every piece of state to its value after reset, for every image and every open byte
(70_reset_and_hazards.md R230), and the invariant holds then. The values of `halt_pending` and of the counters are the spec's
own choice D9 (log entry 7), the open bytes its OPEN parameters D7. -/
def Obligations.ConstructionSetsEveryPieceOfState : Prop :=
  ∀ (policy : UnknownOpcodePolicy) (imemImage dmemImage : List Byte) (imemPad dmemPad : Nat → Byte) (s : State),
    State.construct policy imemImage imemPad dmemImage dmemPad = .ok s →
    s.pc = 0 ∧ (∀ r, s.readReg r = 0) ∧
    (∀ a < 1000, s.imem.read a = (imemImage[a]?).getD (imemPad a)) ∧
    (∀ a < 1000, s.dmem.read a = (dmemImage[a]?).getD (dmemPad a)) ∧
    s.mode = .running ∧ s.haltPending = false ∧ s.cycles = 0 ∧ s.instrs = 0 ∧ s.unknownOpcodePolicy = policy ∧ s.Inv

/-- The core is constructed from two texts exactly when neither is malformed: a line that is not eight characters of `0` and
`1`, or more than 1000 lines (the spec's own choice D8), is a load failure (20_memory.md R79, 70_reset_and_hazards.md R233). -/
def Obligations.TheLaunchFailsExactlyOnMalformedText : Prop :=
  ∀ (policy : UnknownOpcodePolicy) (imemLines dmemLines : List (List Char)) (imemPad dmemPad : Nat → Byte),
    (∃ s, launch policy (some imemLines) imemPad (some dmemLines) dmemPad = .ok s) ↔
      ImageTextOk imemLines ∧ ImageTextOk dmemLines

/-- In every run the pc stays a multiple of 4, at most 1000, and never wraps, and the counters stay within their bounds, at
every step (10_state.md R28, R32: the spec's own inference, from counters that its choice D9 starts at 0,
log entry 7, and that its choice D2 keeps on an idle step, log entry 11). -/
def Obligations.EveryRunKeepsThePcAlignedAndBounded : Prop :=
  ∀ (policy : UnknownOpcodePolicy) (imemImage dmemImage : List Byte) (imemPad dmemPad : Nat → Byte) (s : State),
    State.construct policy imemImage imemPad dmemImage dmemPad = .ok s →
    ∀ (n : Nat) (t : State), stepN n s = .next t →
      t.pc.toNat % 4 = 0 ∧ t.pc.toNat ≤ 1000 ∧ (t.pc + 4).toNat = t.pc.toNat + 4 ∧ t.cycles ≤ 251 ∧ t.instrs ≤ 250

/-! ## Runs and outputs -/

/-- Every run ends within 251 steps, halted or faulted, from every state the invariant allows and so from every constructed
core (40_datapath_cycle.md R136, the spec's own inference; a faulted machine takes no step: its choice D3). -/
def Obligations.EveryRunEndsWithin251Steps : Prop :=
  (∀ s u : State, s.Inv → drive 251 s ≠ .unfinished u) ∧
  (∀ (policy : UnknownOpcodePolicy) (imemImage dmemImage : List Byte) (imemPad dmemPad : Nat → Byte) (s u : State),
    State.construct policy imemImage imemPad dmemImage dmemPad = .ok s → drive 251 s ≠ .unfinished u)

/-- The counting law: `n` real instructions and then a HALT end final after `n + 2` steps, with `n` instructions and `n + 2`
cycles more than the run began with, and the pc at the HALT; a constructed core begins with both counters 0
(40_datapath_cycle.md R131). Undefined opcodes under NOP are among the `n` by the spec's own choice D6 (log entry 11), and the
counters start at 0 by its choice D9 (log entry 7). -/
def Obligations.NInstructionsAndAHaltTakeNPlusTwoCycles : Prop :=
  (∀ (n : Nat) (s u : State) (w : Word), stepN n s = .next u → u.Fetching → u.fetch = some w → fieldOpcode w = 0x7F#7 →
    ∃ v, drive (n + 2) s = .final v ∧ v.instrs = s.instrs + n ∧ v.cycles = s.cycles + (n + 2) ∧ v.pc = u.pc ∧
      RegsKept u v ∧ v.dmem = u.dmem) ∧
  (∀ (policy : UnknownOpcodePolicy) (imemImage dmemImage : List Byte) (imemPad dmemPad : Nat → Byte) (n : Nat)
    (s u : State) (w : Word), State.construct policy imemImage imemPad dmemImage dmemPad = .ok s →
    stepN n s = .next u → u.Fetching → u.fetch = some w → fieldOpcode w = 0x7F#7 →
    ∃ v, drive (n + 2) s = .final v ∧ v.instrs = n ∧ v.cycles = n + 2)

/-- The summary of a final run of `n` instructions: `n + 2` cycles, and the exact quotient or, for `n = 0`, the sentinel
(40_datapath_cycle.md R138, 70_reset_and_hazards.md R236). The exact rational and the sentinel are the spec's own choice D24,
that undefined opcodes under NOP are among the `n` its choice D6, the counters' start at 0 its choice D9 (log entries 7, 11). -/
def Obligations.TheSummaryOfAFinalRun : Prop :=
  ∀ (policy : UnknownOpcodePolicy) (imemImage dmemImage : List Byte) (imemPad dmemPad : Nat → Byte) (k : Nat)
    (s v : State), State.construct policy imemImage imemPad dmemImage dmemPad = .ok s → drive k s = .final v →
    summary v = ⟨v.instrs + 2, v.instrs,
      if v.instrs = 0 then none else some (((v.instrs + 2 : Nat) : Rat) / (v.instrs : Rat))⟩

/-- A completing cycle shows the state after it: trace record, halted flag, the 32 registers with x0 as 0, all 1000 bytes, the
counters, and no fault (10_state.md R25, R37, 40_datapath_cycle.md R132 to R134). The label and the records of the halting cycles
are the spec's own choices D10 and D14, the data snapshot of every cycle its choice D20 (log entry 11). -/
def Obligations.ACompletingCycleShowsTheStateAfterIt : Prop :=
  ∀ s t : State, s.mode = .running → step s = .next t →
    (cycle s).1 = t ∧
    (cycle s).2.trace = some ⟨s.cycles, t.pc, t.haltPending⟩ ∧
    ((cycle s).2.halted = true ↔ t.mode = .halted) ∧
    (cycle s).2.registerSnapshot.length = 32 ∧
    (∀ r : RegIdx, (cycle s).2.registerSnapshot[r.toNat]? = some (t.readReg r)) ∧
    (cycle s).2.dataSnapshot.length = 1000 ∧
    (∀ a < 1000, (cycle s).2.dataSnapshot[a]? = some (t.dmem.read a)) ∧
    (cycle s).2.fault = none ∧ (cycle s).2.cycles = t.cycles ∧ (cycle s).2.instrs = t.instrs

/-- The trace records of a run are labelled consecutively from the cycle count it began with, 0 for a constructed core
(40_datapath_cycle.md R133; the base 0 is the spec's own choice, 92_eei_decisions.md D10, log entry 11). -/
def Obligations.TraceRecordsAreLabelledConsecutively : Prop :=
  ∀ (fuel : Nat) (s : State) (i : Nat) (record : TraceRecord),
    (driveTrace fuel s)[i]? = some record → record.cycle = s.cycles + i

/-! ## Two designs, and what influences nothing -/

/-- The instruction meanings are the datapath driven by the control table and the ports (30_encoding.md R103, R104,
10_state.md R38); the ports and the table are the spec's own choice D1 (log entries 11, 13). -/
def Obligations.TheMeaningsAreTheDatapathOfTheControlTable : Prop :=
  ∀ (w : Word) (s : State), exec (decode w) s = datapath w s

/-- The counters influence nothing but themselves and the instruction count of a fault record, over any number of steps
(10_state.md R33, 60_exceptions.md R212). What the record shows is the spec's own choice D4 (log entry 11). -/
def Obligations.TheCountersInfluenceNothing : Prop :=
  ∀ (n : Nat) (s s' : State), SameButCounters s s' → SameOutcomeButCounters (stepN n s) (stepN n s')

/-- The unknown-opcode policy matters for undefined opcodes only: a step on any other word is the same under both values
(30_encoding.md R105, 92_eei_decisions.md D5). -/
def Obligations.ThePolicyMattersForUndefinedOpcodesOnly : Prop :=
  ∀ (s : State) (policy : UnknownOpcodePolicy) (w : Word), s.fetch = some w → (decode w).kind ≠ .undefined →
    step { s with unknownOpcodePolicy := policy } =
      match step s with
      | .next t => .next { t with unknownOpcodePolicy := policy }
      | .fault f => .fault f
      | .refused r => .refused r

/-! ## The assembler and the texts -/

/-- An assembled word is the canonical one of 30_encoding.md R109 and decodes to its instruction; an immediate outside -2048
to 2047 is rejected (R108). The canonical words and the range check are the spec's own choice D12 (log entry 11). -/
def Obligations.AssembledWordsAreCanonicalAndDecode : Prop :=
  (∀ (a : Asm) (i : Instr), a.instr = some i → i.wf = true ∧ a.word = some (encode i) ∧ decode (encode i) = i) ∧
  (∀ (rd rs1 rs2 : RegIdx) (imm : Int), -2048 ≤ imm → imm ≤ 2047 →
    (Asm.lw rd imm rs1).word = some (BitVec.ofInt 12 imm ++ rs1 ++ 0b010#3 ++ rd ++ 0b0000011#7) ∧
    (Asm.addi rd rs1 imm).word = some (BitVec.ofInt 12 imm ++ rs1 ++ 0b000#3 ++ rd ++ 0b0010011#7) ∧
    (Asm.sw rs2 imm rs1).word = some ((BitVec.ofInt 12 imm).extractLsb' 5 7 ++ rs2 ++ rs1 ++ 0b010#3 ++
      (BitVec.ofInt 12 imm).extractLsb' 0 5 ++ 0b0100011#7) ∧
    (Asm.add rd rs1 rs2).word = some (0b0000000#7 ++ rs2 ++ rs1 ++ 0b000#3 ++ rd ++ 0b0110011#7) ∧
    (Asm.sub rd rs1 rs2).word = some (0b0100000#7 ++ rs2 ++ rs1 ++ 0b000#3 ++ rd ++ 0b0110011#7) ∧
    Asm.halt.word = some 0xFFFFFFFF#32) ∧
  (∀ (rd rs1 rs2 : RegIdx) (imm : Int), (imm < -2048 ∨ 2047 < imm) →
    (Asm.lw rd imm rs1).word = none ∧ (Asm.addi rd rs1 imm).word = none ∧ (Asm.sw rs2 imm rs1).word = none ∧
      (Asm.li rd imm).word = none)

/-- The three pseudo-instructions do what their names say: `nop` only moves the pc and counts, `mv` copies a register, `li`
loads the signed number (30_encoding.md R110, the spec's own choice D13; log entry 11). -/
def Obligations.PseudoInstructionsDoWhatTheyName : Prop :=
  ∀ (rd rs1 : RegIdx) (imm : Int) (s : State), rd ≠ 0#5 → -2048 ≤ imm → imm ≤ 2047 →
    (∃ i, Asm.nop.instr = some i ∧
      exec i s = .next { s with pc := s.pc + 4, cycles := s.cycles + 1, instrs := s.instrs + 1 }) ∧
    (∃ i t, (Asm.mv rd rs1).instr = some i ∧ exec i s = .next t ∧ t.readReg rd = s.readReg rs1) ∧
    (∃ i t, (Asm.li rd imm).instr = some i ∧ exec i s = .next t ∧ (t.readReg rd).toInt = imm)

/-- The data snapshot text is an image text: read back it gives the bytes it was written from (20_memory.md R78). -/
def Obligations.TheDataSnapshotReadsBackAsAnImage : Prop :=
  ∀ s : State, parseImage (dataSnapshotText s) = .ok s.dataSnapshot

/-! ## The ALU select, and the sources of a launch -/

/-- `alu_op` is SUB exactly for opcode 0x33 with funct7 0x20 and ADD for every other word, those that do not use the ALU included;
the result is the sum or the difference modulo 2^32, and a word whose operands are driven shows it (30_encoding.md R104). -/
def Obligations.TheAluSubtractsExactlyForSub : Prop :=
  (∀ (w : Word) (s : State),
    (ports (decodeRecord w) (controlTable (decodeRecord w).kind s.unknownOpcodePolicy) s).aluOp =
      (if fieldOpcode w = 0x33#7 ∧ fieldFunct7 w = 0x20#7 then .sub else .add)) ∧
  (∀ op : AluOp, op = .add ∨ op = .sub) ∧
  (∀ a b : Word, (alu .add a b).toNat = (a.toNat + b.toNat) % 2 ^ 32 ∧
    ((alu .sub a b).toNat : Int) = ((a.toNat : Int) - b.toNat) % 2 ^ 32) ∧
  (∀ (d : Decoded) (c : Control) (s : State) (a b : Word), (ports d c s).aluA = some a → (ports d c s).aluB = some b →
    (ports d c s).aluY = some (alu (ports d c s).aluOp a b))

/-- A missing image source is a load failure: whatever the other source is the core is never constructed, and where the other
source is well-formed or missing the failure is named as missing (60_exceptions.md R200, 70_reset_and_hazards.md R233; the names
of the failures are the model's choice, log entry 12). -/
def Obligations.AMissingSourceIsALoadFailure : Prop :=
  ∀ (policy : UnknownOpcodePolicy) (source : Option (List (List Char))) (imemPad dmemPad : Nat → Byte),
    (∀ s, launch policy none imemPad source dmemPad ≠ .ok s) ∧
    (∀ s, launch policy source imemPad none dmemPad ≠ .ok s) ∧
    ((∀ lines, source = some lines → ImageTextOk lines) →
      launch policy none imemPad source dmemPad = .error .missing ∧
      launch policy source imemPad none dmemPad = .error .missing)
end

