-- ==== Sys2Proof/Laws/Datapath.lean ====
section
/-! SUPPORT. The ALU's select and result in the datapath (30_encoding.md R103, R104). -/

namespace Sys2Proof.Machine

/-- The select of every row of the control table. -/
theorem controlTable_aluOp (k : Kind) (policy : UnknownOpcodePolicy) :
    (controlTable k policy).aluOp = if k = .sub then .sub else .add := by
  cases k <;> cases policy <;> rfl

@[simp] theorem aluPort_some (op : AluOp) (a b : Word) : aluPort op (some a) (some b) = some (alu op a b) := rfl
@[simp] theorem aluPort_none_left (op : AluOp) (b : Option Word) : aluPort op none b = none := rfl
@[simp] theorem aluPort_none_right (op : AluOp) (a : Option Word) : aluPort op a none = none := by cases a <;> rfl

end Sys2Proof.Machine
end

