-- ==== Sys2Proof/Laws/Decode.lean ====
section
/-! SUPPORT. The two bit-vector operations of the decoder and the encoder as arithmetic on numbers, where omega closes what is left. -/

namespace Sys2Proof

/-- Concatenation shifts the high part by the width of the low part. -/
theorem toNat_append_add {m n : Nat} (hi : BitVec m) (lo : BitVec n) :
    (hi ++ lo).toNat = hi.toNat * 2 ^ n + lo.toNat := by
  rw [BitVec.toNat_append, ← Nat.shiftLeft_add_eq_or_of_lt lo.isLt, Nat.shiftLeft_eq]

/-- A field is a quotient and a remainder. -/
theorem toNat_field (w : Word) (start width : Nat) :
    (w.extractLsb' start width).toNat = w.toNat / 2 ^ start % 2 ^ width := by
  rw [BitVec.extractLsb'_toNat, Nat.shiftRight_eq_div_pow]

/-- The opcode map's mask of one field (30_encoding.md R101). -/
theorem and_mask_opcode (w : Word) : w &&& 0x0000007F#32 = (fieldOpcode w).setWidth 32 := by
  apply BitVec.eq_of_getLsbD_eq
  intro k hk
  simp only [fieldOpcode, BitVec.getLsbD_and, BitVec.getLsbD_setWidth, BitVec.getLsbD_extractLsb']
  interval_cases k <;> simp

/-- The mask of the SUB row (30_encoding.md R101). -/
theorem and_mask_sub (w : Word) : w &&& 0xFE00007F#32 = fieldFunct7 w ++ 0#18 ++ fieldOpcode w := by
  apply BitVec.eq_of_getLsbD_eq
  intro k hk
  simp only [fieldFunct7, fieldOpcode, BitVec.getLsbD_and, BitVec.getLsbD_append, BitVec.getLsbD_extractLsb']
  interval_cases k <;> simp

/-- The kind of the decoded instruction is the one the dispatch selects. -/
theorem decode_kind (w : Word) : (decode w).kind = kindOf (fieldOpcode w) (fieldFunct7 w) := by
  unfold decode
  split <;> simp [Instr.kind, *]

/-- A Word is the number its fields of the R format spell. -/
theorem toNat_eq_fields (w : Word) :
    w.toNat = (fieldFunct7 w).toNat * 2 ^ 25 + (fieldRs2 w).toNat * 2 ^ 20 + (fieldRs1 w).toNat * 2 ^ 15 +
      (fieldIgnored w).toNat * 2 ^ 12 + (fieldRd w).toNat * 2 ^ 7 + (fieldOpcode w).toNat := by
  simp only [fieldFunct7, fieldRs2, fieldRs1, fieldIgnored, fieldRd, fieldOpcode, toNat_field]
  have := w.isLt
  omega

/-- The fields of a word laid out in the R format (30_encoding.md R94); the S-immediate reads two of them. -/
theorem fields_append (f : BitVec 7) (r2 r1 : RegIdx) (g : BitVec 3) (d : RegIdx) (op : BitVec 7) :
    fieldFunct7 (f ++ r2 ++ r1 ++ g ++ d ++ op) = f ∧ fieldRs2 (f ++ r2 ++ r1 ++ g ++ d ++ op) = r2 ∧
      fieldRs1 (f ++ r2 ++ r1 ++ g ++ d ++ op) = r1 ∧ fieldIgnored (f ++ r2 ++ r1 ++ g ++ d ++ op) = g ∧
      fieldRd (f ++ r2 ++ r1 ++ g ++ d ++ op) = d ∧ fieldOpcode (f ++ r2 ++ r1 ++ g ++ d ++ op) = op ∧
      fieldImmS (f ++ r2 ++ r1 ++ g ++ d ++ op) = f ++ d := by
  have := f.isLt; have := r2.isLt; have := r1.isLt; have := g.isLt; have := d.isLt; have := op.isLt
  refine ⟨?_, ?_, ?_, ?_, ?_, ?_, ?_⟩ <;> apply BitVec.eq_of_toNat_eq <;>
    simp only [fieldFunct7, fieldRs2, fieldRs1, fieldIgnored, fieldRd, fieldOpcode, fieldImmS, toNat_field,
      toNat_append_add] <;> omega

/-- The fields of a word laid out in the I format (30_encoding.md R92). -/
theorem fields_append_immI (imm : Imm12) (r1 : RegIdx) (g : BitVec 3) (d : RegIdx) (op : BitVec 7) :
    fieldImmI (imm ++ r1 ++ g ++ d ++ op) = imm ∧ fieldRs1 (imm ++ r1 ++ g ++ d ++ op) = r1 ∧
      fieldIgnored (imm ++ r1 ++ g ++ d ++ op) = g ∧ fieldRd (imm ++ r1 ++ g ++ d ++ op) = d ∧
      fieldOpcode (imm ++ r1 ++ g ++ d ++ op) = op := by
  have := imm.isLt; have := r1.isLt; have := g.isLt; have := d.isLt; have := op.isLt
  refine ⟨?_, ?_, ?_, ?_, ?_⟩ <;> apply BitVec.eq_of_toNat_eq <;>
    simp only [fieldImmI, fieldRs1, fieldIgnored, fieldRd, fieldOpcode, toNat_field, toNat_append_add] <;> omega

/-- The fields of a word of which only the opcode is read (30_encoding.md R95). -/
theorem fields_append_upper (upper : BitVec 25) (op : BitVec 7) :
    fieldUpper (upper ++ op) = upper ∧ fieldOpcode (upper ++ op) = op := by
  have := upper.isLt; have := op.isLt
  constructor <;> apply BitVec.eq_of_toNat_eq <;>
    simp only [fieldUpper, fieldOpcode, toNat_field, toNat_append_add] <;> omega

/-- The bytes of a composed Word are the bytes it was composed of (20_memory.md R61). -/
theorem byteOfWord_wordOfBytes (b0 b1 b2 b3 : Byte) :
    byteOfWord (wordOfBytes b0 b1 b2 b3) 0 = b0 ∧ byteOfWord (wordOfBytes b0 b1 b2 b3) 1 = b1 ∧
      byteOfWord (wordOfBytes b0 b1 b2 b3) 2 = b2 ∧ byteOfWord (wordOfBytes b0 b1 b2 b3) 3 = b3 := by
  have := b0.isLt; have := b1.isLt; have := b2.isLt; have := b3.isLt
  refine ⟨?_, ?_, ?_, ?_⟩ <;> apply BitVec.eq_of_toNat_eq <;>
    simp only [byteOfWord, wordOfBytes, toNat_field, toNat_append_add] <;> omega

/-- A Word is composed of its own bytes. -/
@[simp] theorem wordOfBytes_byteOfWord (w : Word) :
    wordOfBytes (byteOfWord w 0) (byteOfWord w 1) (byteOfWord w 2) (byteOfWord w 3) = w := by
  have := w.isLt
  apply BitVec.eq_of_toNat_eq
  simp only [byteOfWord, wordOfBytes, toNat_field, toNat_append_add]
  omega

/-- The number a sign-extended immediate is. -/
theorem sext_toNat (imm : Imm12) :
    (sext imm).toNat = if imm.getLsbD 11 = true then 0xFFFFF000 + imm.toNat else imm.toNat := by
  rw [sext, BitVec.toNat_signExtend]
  simp only [BitVec.msb_eq_getLsbD_last, BitVec.toNat_setWidth]
  have := imm.isLt
  simp
  split <;> omega

/-- Sign extension keeps the two's-complement value. -/
theorem sext_toInt (imm : Imm12) : (sext imm).toInt = imm.toInt := BitVec.toInt_signExtend_of_le (by omega)

end Sys2Proof
end

