-- ==== Sys2Proof/Laws/Memory.lean ====
section
/-! SUPPORT. What the memory operations do: read after write, what a write leaves alone, and that every operation keeps the canonical form. -/

namespace Sys2Proof.Machine

@[simp] theorem Memory.read_nil (a : Nat) : Memory.read [] a = Memory.unlisted := rfl

@[simp] theorem Memory.read_cell (k : Nat) (b : Byte) (m : Memory) (a : Nat) :
    Memory.read ((k, b) :: m) a = if a = k then b else m.read a := rfl

/-- Below the lower bound of a canonical memory nothing is listed. -/
theorem Memory.read_of_lt {lo a : Nat} {m : Memory} (h : Memory.wfFrom lo m = true) (ha : a < lo) :
    m.read a = Memory.unlisted := by
  induction m generalizing lo with
  | nil => rfl
  | cons cell rest ih =>
    obtain ⟨k, b⟩ := cell
    simp only [Memory.wfFrom, Bool.and_eq_true, decide_eq_true_eq] at h
    rw [Memory.read_cell, if_neg (by omega)]
    exact ih h.2 (by omega)

/-- Above the window nothing is listed. -/
theorem Memory.read_of_memSize_le {lo a : Nat} {m : Memory} (h : Memory.wfFrom lo m = true) (ha : memSize ≤ a) :
    m.read a = Memory.unlisted := by
  induction m generalizing lo with
  | nil => rfl
  | cons cell rest ih =>
    obtain ⟨k, b⟩ := cell
    simp only [Memory.wfFrom, Bool.and_eq_true, decide_eq_true_eq] at h
    rw [Memory.read_cell, if_neg (by omega)]
    exact ih h.2

theorem Memory.wfFrom_mono {lo lo' : Nat} {m : Memory} (h : Memory.wfFrom lo m = true) (hle : lo' ≤ lo) :
    Memory.wfFrom lo' m = true := by
  cases m with
  | nil => rfl
  | cons cell rest =>
    obtain ⟨k, b⟩ := cell
    simp only [Memory.wfFrom, Bool.and_eq_true, decide_eq_true_eq] at h ⊢
    exact ⟨⟨⟨by omega, h.1.1.2⟩, h.1.2⟩, h.2⟩

theorem Memory.wfFrom_cons {lo a : Nat} {b : Byte} {m : Memory} (hlo : lo ≤ a) (ha : a < memSize)
    (h : Memory.wfFrom (a + 1) m = true) : Memory.wfFrom lo (Memory.cons a b m) = true := by
  unfold Memory.cons
  split
  · exact Memory.wfFrom_mono h (by omega)
  · simp only [Memory.wfFrom, Bool.and_eq_true, decide_eq_true_eq]
    exact ⟨⟨⟨hlo, ha⟩, by simpa using ‹_›⟩, h⟩

theorem Memory.read_cons {m : Memory} {a : Nat} (b : Byte) (h : Memory.wfFrom (a + 1) m = true) (x : Nat) :
    (Memory.cons a b m).read x = if x = a then b else m.read x := by
  unfold Memory.cons
  split
  · rename_i hb
    by_cases hx : x = a
    · rw [if_pos hx, hb, hx, Memory.read_of_lt h (by omega)]
    · rw [if_neg hx]
  · rfl

/-- One byte replaced: that byte reads the new value, and every other byte reads as before. -/
theorem Memory.read_write_from {lo : Nat} {m : Memory} (h : Memory.wfFrom lo m = true) (a : Nat) (b : Byte) (x : Nat) :
    (m.write a b).read x = if x = a then b else m.read x := by
  induction m generalizing lo with
  | nil => exact Memory.read_cons b rfl x
  | cons cell rest ih =>
    obtain ⟨k, c⟩ := cell
    have hc := h
    simp only [Memory.wfFrom, Bool.and_eq_true, decide_eq_true_eq] at h
    unfold Memory.write
    split
    · refine Memory.read_cons b ?_ x
      simp only [Memory.wfFrom, Bool.and_eq_true, decide_eq_true_eq]
      exact ⟨⟨⟨by omega, h.1.1.2⟩, h.1.2⟩, h.2⟩
    · split
      · rename_i hak
        subst hak
        rw [Memory.read_cons b h.2 x, Memory.read_cell]
        by_cases hx : x = a <;> simp [hx]
      · rename_i hak
        rw [Memory.read_cell, ih h.2, Memory.read_cell]
        by_cases hx : x = k
        · subst hx; rw [if_pos rfl, if_pos rfl, if_neg (fun h' => hak h'.symm)]
        · rw [if_neg hx, if_neg hx]

/-- A write inside the window keeps the canonical form. -/
theorem Memory.wfFrom_write {lo : Nat} {m : Memory} (h : Memory.wfFrom lo m = true) {a : Nat} (b : Byte)
    (hlo : lo ≤ a) (ha : a < memSize) : Memory.wfFrom lo (m.write a b) = true := by
  induction m generalizing lo with
  | nil => exact Memory.wfFrom_cons hlo ha rfl
  | cons cell rest ih =>
    obtain ⟨k, c⟩ := cell
    simp only [Memory.wfFrom, Bool.and_eq_true, decide_eq_true_eq] at h
    unfold Memory.write
    split
    · refine Memory.wfFrom_cons hlo ha ?_
      simp only [Memory.wfFrom, Bool.and_eq_true, decide_eq_true_eq]
      exact ⟨⟨⟨by omega, h.1.1.2⟩, h.1.2⟩, h.2⟩
    · split
      · rename_i hak
        subst hak
        exact Memory.wfFrom_cons hlo ha h.2
      · simp only [Memory.wfFrom, Bool.and_eq_true, decide_eq_true_eq]
        exact ⟨h.1, ih h.2 (by omega)⟩

theorem Memory.read_write {m : Memory} (h : m.wf = true) (a : Nat) (b : Byte) (x : Nat) :
    (m.write a b).read x = if x = a then b else m.read x :=
  Memory.read_write_from h a b x

theorem Memory.wf_write {m : Memory} (h : m.wf = true) {a : Nat} (b : Byte) (ha : a < memSize) :
    (m.write a b).wf = true :=
  Memory.wfFrom_write h b (Nat.zero_le a) ha

/-- The lists of equal contents are equal: what the canonical form is for. -/
theorem Memory.ext_from {lo : Nat} {m m' : Memory} (h : Memory.wfFrom lo m = true) (h' : Memory.wfFrom lo m' = true)
    (hr : ∀ a, m.read a = m'.read a) : m = m' := by
  induction m generalizing lo m' with
  | nil =>
    cases m' with
    | nil => rfl
    | cons cell rest =>
      obtain ⟨k, b⟩ := cell
      have hk := hr k
      simp only [Memory.wfFrom, Bool.and_eq_true, bne_iff_ne, ne_eq] at h'
      rw [Memory.read_nil, Memory.read_cell, if_pos rfl] at hk
      exact absurd hk.symm h'.1.2
  | cons cell rest ih =>
    obtain ⟨k, b⟩ := cell
    cases m' with
    | nil =>
      have hk := hr k
      simp only [Memory.wfFrom, Bool.and_eq_true, bne_iff_ne, ne_eq] at h
      rw [Memory.read_nil, Memory.read_cell, if_pos rfl] at hk
      exact absurd hk h.1.2
    | cons cell' rest' =>
      obtain ⟨k', b'⟩ := cell'
      simp only [Memory.wfFrom, Bool.and_eq_true, decide_eq_true_eq, bne_iff_ne, ne_eq] at h h'
      have hkk : k = k' := by
        rcases Nat.lt_trichotomy k k' with hlt | heq | hgt
        · have hk := hr k
          rw [Memory.read_cell, if_pos rfl, Memory.read_cell, if_neg (by omega),
            Memory.read_of_lt h'.2 (by omega)] at hk
          exact absurd hk h.1.2
        · exact heq
        · have hk := hr k'
          rw [Memory.read_cell, if_neg (by omega), Memory.read_of_lt h.2 (by omega), Memory.read_cell,
            if_pos rfl] at hk
          exact absurd hk.symm h'.1.2
      subst hkk
      have hbb : b = b' := by simpa using hr k
      subst hbb
      congr 1
      refine ih h.2 h'.2 (fun a => ?_)
      by_cases ha : a = k
      · subst ha
        rw [Memory.read_of_lt h.2 (by omega), Memory.read_of_lt h'.2 (by omega)]
      · simpa [ha] using hr a

theorem Memory.ext {m m' : Memory} (h : m.wf = true) (h' : m'.wf = true) (hr : ∀ a, m.read a = m'.read a) : m = m' :=
  Memory.ext_from h h' hr

/-! ## Words -/

theorem inWindow_iff (a : Word) : inWindow a = true ↔ a.toNat ≤ 996 := by
  simp [inWindow, accessBytes, memSize]

/-- The four bytes of a stored Word, and every byte outside them. -/
theorem Memory.read_putWord {m : Memory} (h : m.wf = true) {n : Nat} (hn : n + 3 < memSize) (v : Word) (x : Nat) :
    (m.putWord n v).read x =
      if x = n + 3 then byteOfWord v 3 else if x = n + 2 then byteOfWord v 2
      else if x = n + 1 then byteOfWord v 1 else if x = n then byteOfWord v 0 else m.read x := by
  have h0 := Memory.wf_write h (a := n) (byteOfWord v 0) (by omega)
  have h1 := Memory.wf_write h0 (a := n + 1) (byteOfWord v 1) (by omega)
  have h2 := Memory.wf_write h1 (a := n + 2) (byteOfWord v 2) (by omega)
  rw [Memory.putWord, Memory.read_write h2, Memory.read_write h1, Memory.read_write h0, Memory.read_write h]

theorem Memory.wf_putWord {m : Memory} (h : m.wf = true) {n : Nat} (hn : n + 3 < memSize) (v : Word) :
    (m.putWord n v).wf = true := by
  unfold Memory.putWord
  exact Memory.wf_write (Memory.wf_write (Memory.wf_write (Memory.wf_write h _ (by omega)) _ (by omega)) _
    (by omega)) _ (by omega)

/-- A Word read is the big-endian composition of its bytes, exactly where the access is in the window. -/
theorem Memory.readWord_eq_some_iff (m : Memory) (a v : Word) :
    m.readWord a = some v ↔ a.toNat ≤ 996 ∧
      v = wordOfBytes (m.read a.toNat) (m.read (a.toNat + 1)) (m.read (a.toNat + 2)) (m.read (a.toNat + 3)) := by
  unfold Memory.readWord
  split
  · simp [(inWindow_iff a).mp ‹_›, eq_comm]
  · have : ¬ a.toNat ≤ 996 := fun h => ‹¬ _› ((inWindow_iff a).mpr h)
    simp [this]

theorem Memory.readWord_eq_none_iff (m : Memory) (a : Word) : m.readWord a = none ↔ 996 < a.toNat := by
  unfold Memory.readWord
  split
  · have := (inWindow_iff a).mp ‹_›
    simp; omega
  · have : ¬ a.toNat ≤ 996 := fun h => ‹¬ _› ((inWindow_iff a).mpr h)
    simp; omega

theorem Memory.writeWord_eq_some_iff (m m' : Memory) (a v : Word) :
    m.writeWord a v = some m' ↔ a.toNat ≤ 996 ∧ m' = m.putWord a.toNat v := by
  unfold Memory.writeWord
  split
  · simp [(inWindow_iff a).mp ‹_›, eq_comm]
  · have : ¬ a.toNat ≤ 996 := fun h => ‹¬ _› ((inWindow_iff a).mpr h)
    simp [this]

theorem Memory.writeWord_eq_none_iff (m : Memory) (a v : Word) : m.writeWord a v = none ↔ 996 < a.toNat := by
  unfold Memory.writeWord
  split
  · have := (inWindow_iff a).mp ‹_›
    simp; omega
  · have : ¬ a.toNat ≤ 996 := fun h => ‹¬ _› ((inWindow_iff a).mpr h)
    simp; omega

theorem Memory.wf_writeWord {m m' : Memory} {a v : Word} (h : m.wf = true) (hw : m.writeWord a v = some m') :
    m'.wf = true := by
  obtain ⟨ha, rfl⟩ := (Memory.writeWord_eq_some_iff m m' a v).mp hw
  exact Memory.wf_putWord h (by simp only [memSize]; omega) v

/-! ## Loading -/

theorem Memory.wfFrom_ofBytes {n : Nat} {bytes : List Byte} (h : n + bytes.length ≤ memSize) :
    Memory.wfFrom n (Memory.ofBytes n bytes) = true := by
  induction bytes generalizing n with
  | nil => rfl
  | cons b rest ih =>
    simp only [List.length_cons] at h
    exact Memory.wfFrom_cons (Nat.le_refl n) (by omega) (ih (by omega))

/-- Byte `i` of what is loaded from address `n` stands at address `n + i`. -/
theorem Memory.read_ofBytes {n : Nat} {bytes : List Byte} (h : n + bytes.length ≤ memSize) (i : Nat) (b : Byte)
    (hb : bytes[i]? = some b) : (Memory.ofBytes n bytes).read (n + i) = b := by
  induction bytes generalizing n i with
  | nil => simp at hb
  | cons c rest ih =>
    simp only [List.length_cons] at h
    rw [Memory.ofBytes, Memory.read_cons c (Memory.wfFrom_ofBytes (by omega))]
    cases i with
    | zero => simpa using hb
    | succ j =>
      rw [if_neg (by omega)]
      have := ih (n := n + 1) (by omega) j (by simpa using hb)
      rwa [show n + 1 + j = n + (j + 1) by omega] at this

theorem Memory.wf_ofBytes {bytes : List Byte} (h : bytes.length ≤ memSize) : (Memory.ofBytes 0 bytes).wf = true :=
  Memory.wfFrom_ofBytes (by omega)

theorem fillImage_length {image : List Byte} (pad : Nat → Byte) (h : image.length ≤ memSize) :
    (fillImage image pad).length = memSize := by
  simp [fillImage]; omega

theorem loadImage_eq_ok_iff (image : List Byte) (pad : Nat → Byte) (m : Memory) :
    loadImage image pad = .ok m ↔ image.length ≤ memSize ∧ m = Memory.ofBytes 0 (fillImage image pad) := by
  unfold loadImage
  split <;> simp [*, eq_comm]

theorem loadImage_wf {image : List Byte} {pad : Nat → Byte} {m : Memory} (h : loadImage image pad = .ok m) :
    m.wf = true := by
  obtain ⟨hl, rfl⟩ := (loadImage_eq_ok_iff image pad m).mp h
  exact Memory.wf_ofBytes (Nat.le_of_eq (fillImage_length pad hl))

end Sys2Proof.Machine
end

