-- ==== Sys2Proof/Laws/State.lean ====
section
/-! SUPPORT. One lemma per field per update, and per field after reset: no later proof unfolds a record update. -/

namespace Sys2Proof.Machine

/-! ## `retire` -/

@[simp] theorem State.retire_pc (s : State) : (s.retire).pc = s.pc + 4 := rfl
@[simp] theorem State.retire_regs (s : State) : (s.retire).regs = s.regs := rfl
@[simp] theorem State.retire_imem (s : State) : (s.retire).imem = s.imem := rfl
@[simp] theorem State.retire_dmem (s : State) : (s.retire).dmem = s.dmem := rfl
@[simp] theorem State.retire_mode (s : State) : (s.retire).mode = s.mode := rfl
@[simp] theorem State.retire_haltPending (s : State) : (s.retire).haltPending = s.haltPending := rfl
@[simp] theorem State.retire_cycles (s : State) : (s.retire).cycles = s.cycles + 1 := rfl
@[simp] theorem State.retire_instrs (s : State) : (s.retire).instrs = s.instrs + 1 := rfl
@[simp] theorem State.retire_unknownOpcodePolicy (s : State) : (s.retire).unknownOpcodePolicy = s.unknownOpcodePolicy := rfl

/-! ## `drain` -/

@[simp] theorem State.drain_pc (s : State) : (s.drain).pc = s.pc := rfl
@[simp] theorem State.drain_regs (s : State) : (s.drain).regs = s.regs := rfl
@[simp] theorem State.drain_imem (s : State) : (s.drain).imem = s.imem := rfl
@[simp] theorem State.drain_dmem (s : State) : (s.drain).dmem = s.dmem := rfl
@[simp] theorem State.drain_mode (s : State) : (s.drain).mode = .halted := rfl
@[simp] theorem State.drain_haltPending (s : State) : (s.drain).haltPending = s.haltPending := rfl
@[simp] theorem State.drain_cycles (s : State) : (s.drain).cycles = s.cycles + 1 := rfl
@[simp] theorem State.drain_instrs (s : State) : (s.drain).instrs = s.instrs := rfl
@[simp] theorem State.drain_unknownOpcodePolicy (s : State) : (s.drain).unknownOpcodePolicy = s.unknownOpcodePolicy := rfl

/-! ## `setHaltPending` -/

@[simp] theorem State.setHaltPending_pc (s : State) : (s.setHaltPending).pc = s.pc := rfl
@[simp] theorem State.setHaltPending_regs (s : State) : (s.setHaltPending).regs = s.regs := rfl
@[simp] theorem State.setHaltPending_imem (s : State) : (s.setHaltPending).imem = s.imem := rfl
@[simp] theorem State.setHaltPending_dmem (s : State) : (s.setHaltPending).dmem = s.dmem := rfl
@[simp] theorem State.setHaltPending_mode (s : State) : (s.setHaltPending).mode = s.mode := rfl
@[simp] theorem State.setHaltPending_haltPending (s : State) : (s.setHaltPending).haltPending = true := rfl
@[simp] theorem State.setHaltPending_cycles (s : State) : (s.setHaltPending).cycles = s.cycles + 1 := rfl
@[simp] theorem State.setHaltPending_instrs (s : State) : (s.setHaltPending).instrs = s.instrs := rfl
@[simp] theorem State.setHaltPending_unknownOpcodePolicy (s : State) : (s.setHaltPending).unknownOpcodePolicy = s.unknownOpcodePolicy := rfl

/-! ## `writeReg` changes no field but `regs` -/

@[simp] theorem State.writeReg_pc (s : State) (r : RegIdx) (v : Word) : (s.writeReg r v).pc = s.pc := by
  unfold State.writeReg; split <;> rfl
@[simp] theorem State.writeReg_imem (s : State) (r : RegIdx) (v : Word) : (s.writeReg r v).imem = s.imem := by
  unfold State.writeReg; split <;> rfl
@[simp] theorem State.writeReg_dmem (s : State) (r : RegIdx) (v : Word) : (s.writeReg r v).dmem = s.dmem := by
  unfold State.writeReg; split <;> rfl
@[simp] theorem State.writeReg_mode (s : State) (r : RegIdx) (v : Word) : (s.writeReg r v).mode = s.mode := by
  unfold State.writeReg; split <;> rfl
@[simp] theorem State.writeReg_haltPending (s : State) (r : RegIdx) (v : Word) : (s.writeReg r v).haltPending = s.haltPending := by
  unfold State.writeReg; split <;> rfl
@[simp] theorem State.writeReg_cycles (s : State) (r : RegIdx) (v : Word) : (s.writeReg r v).cycles = s.cycles := by
  unfold State.writeReg; split <;> rfl
@[simp] theorem State.writeReg_instrs (s : State) (r : RegIdx) (v : Word) : (s.writeReg r v).instrs = s.instrs := by
  unfold State.writeReg; split <;> rfl
@[simp] theorem State.writeReg_unknownOpcodePolicy (s : State) (r : RegIdx) (v : Word) : (s.writeReg r v).unknownOpcodePolicy = s.unknownOpcodePolicy := by
  unfold State.writeReg; split <;> rfl

/-! ## `writeBack` -/

@[simp] theorem State.writeBack_pc (s : State) (rd : RegIdx) (v : Word) :
    (s.writeBack rd v).pc = s.pc + 4 := by simp [State.writeBack]
@[simp] theorem State.writeBack_imem (s : State) (rd : RegIdx) (v : Word) :
    (s.writeBack rd v).imem = s.imem := by simp [State.writeBack]
@[simp] theorem State.writeBack_dmem (s : State) (rd : RegIdx) (v : Word) :
    (s.writeBack rd v).dmem = s.dmem := by simp [State.writeBack]
@[simp] theorem State.writeBack_mode (s : State) (rd : RegIdx) (v : Word) :
    (s.writeBack rd v).mode = s.mode := by simp [State.writeBack]
@[simp] theorem State.writeBack_haltPending (s : State) (rd : RegIdx) (v : Word) :
    (s.writeBack rd v).haltPending = s.haltPending := by simp [State.writeBack]
@[simp] theorem State.writeBack_cycles (s : State) (rd : RegIdx) (v : Word) :
    (s.writeBack rd v).cycles = s.cycles + 1 := by simp [State.writeBack]
@[simp] theorem State.writeBack_instrs (s : State) (rd : RegIdx) (v : Word) :
    (s.writeBack rd v).instrs = s.instrs + 1 := by simp [State.writeBack]
@[simp] theorem State.writeBack_unknownOpcodePolicy (s : State) (rd : RegIdx) (v : Word) :
    (s.writeBack rd v).unknownOpcodePolicy = s.unknownOpcodePolicy := by simp [State.writeBack]

/-! ## `withFetchWord` -/

@[simp] theorem State.withFetchWord_pc (s : State) (nbits w : Nat) :
    (s.withFetchWord nbits w).pc = (if inWindow s.pc then s.pc else 0) := rfl
@[simp] theorem State.withFetchWord_regs (s : State) (nbits w : Nat) :
    (s.withFetchWord nbits w).regs = s.regs := rfl
@[simp] theorem State.withFetchWord_imem (s : State) (nbits w : Nat) :
    (s.withFetchWord nbits w).imem = s.imem.putWord (if inWindow s.pc then s.pc else 0).toNat (BitVec.ofNat 32 (w % 2 ^ nbits)) := rfl
@[simp] theorem State.withFetchWord_dmem (s : State) (nbits w : Nat) :
    (s.withFetchWord nbits w).dmem = s.dmem := rfl
@[simp] theorem State.withFetchWord_mode (s : State) (nbits w : Nat) :
    (s.withFetchWord nbits w).mode = .running := rfl
@[simp] theorem State.withFetchWord_haltPending (s : State) (nbits w : Nat) :
    (s.withFetchWord nbits w).haltPending = false := rfl
@[simp] theorem State.withFetchWord_cycles (s : State) (nbits w : Nat) :
    (s.withFetchWord nbits w).cycles = s.cycles := rfl
@[simp] theorem State.withFetchWord_instrs (s : State) (nbits w : Nat) :
    (s.withFetchWord nbits w).instrs = s.instrs := rfl
@[simp] theorem State.withFetchWord_unknownOpcodePolicy (s : State) (nbits w : Nat) :
    (s.withFetchWord nbits w).unknownOpcodePolicy = s.unknownOpcodePolicy := rfl

/-! ## `reset` -/

@[simp] theorem State.reset_pc : State.reset.pc = 0 := rfl
@[simp] theorem State.reset_regs : State.reset.regs = Vector.replicate 31 0 := rfl
@[simp] theorem State.reset_imem : State.reset.imem = [] := rfl
@[simp] theorem State.reset_dmem : State.reset.dmem = [] := rfl
@[simp] theorem State.reset_mode : State.reset.mode = .running := rfl
@[simp] theorem State.reset_haltPending : State.reset.haltPending = false := rfl
@[simp] theorem State.reset_cycles : State.reset.cycles = 0 := rfl
@[simp] theorem State.reset_instrs : State.reset.instrs = 0 := rfl
@[simp] theorem State.reset_unknownOpcodePolicy : State.reset.unknownOpcodePolicy = .nop := rfl

end Sys2Proof.Machine
end

