-- ==== Sys2Proof/Laws/Ops.lean ====
section
/-! SUPPORT. One lemma per shared operation, per meaning and for `step`, that says once everything it can do. Later proofs cite these and unfold none of them. -/

namespace Sys2Proof.Machine

/-! ## Registers -/

@[simp] theorem State.readReg_zero (s : State) : s.readReg 0#5 = 0 := rfl

/-- A register read depends on the register cells alone. -/
theorem State.readReg_congr {s t : State} (h : t.regs = s.regs) (r : RegIdx) : t.readReg r = s.readReg r := by
  simp only [State.readReg, h]

@[simp] theorem State.readReg_retire (s : State) (r : RegIdx) : s.retire.readReg r = s.readReg r := rfl
@[simp] theorem State.readReg_drain (s : State) (r : RegIdx) : s.drain.readReg r = s.readReg r := rfl
@[simp] theorem State.readReg_setHaltPending (s : State) (r : RegIdx) : s.setHaltPending.readReg r = s.readReg r := rfl

theorem regIdx_pos {r : RegIdx} (h : r ≠ 0#5) : 0 < r.toNat := by
  rcases Nat.eq_zero_or_pos r.toNat with h0 | h0
  · exact absurd (BitVec.eq_of_toNat_eq (by simpa using h0)) h
  · exact h0

/-- What a register reads after a write: x0 reads 0 and takes no write (10_state.md R21). -/
theorem State.readReg_writeReg (s : State) (r q : RegIdx) (v : Word) :
    (s.writeReg r v).readReg q = if q = r ∧ r ≠ 0#5 then v else s.readReg q := by
  by_cases hr : r = 0#5
  · simp [State.writeReg, hr]
  · by_cases hq : q = 0#5
    · subst hq
      rw [if_neg (fun h => hr h.1.symm)]; rfl
    · have hr' := regIdx_pos hr
      have hq' := regIdx_pos hq
      simp only [State.writeReg, if_neg hr, State.readReg, if_neg hq]
      by_cases hqr : q = r
      · subst hqr; simp [hr]
      · have hne : q.toNat ≠ r.toNat := fun h => hqr (BitVec.eq_of_toNat_eq h)
        rw [if_neg (fun h => hqr h.1), Vector.getElem_set_ne _ _ (by omega)]

theorem State.readReg_writeBack (s : State) (rd q : RegIdx) (v : Word) :
    (s.writeBack rd v).readReg q = if q = rd ∧ rd ≠ 0#5 then v else s.readReg q := by
  rw [State.writeBack, State.readReg_retire, State.readReg_writeReg]

/-- The destination after a write-back. -/
theorem State.readReg_writeBack_self (s : State) (rd : RegIdx) (v : Word) :
    (s.writeBack rd v).readReg rd = if rd = 0#5 then 0 else v := by
  rw [State.readReg_writeBack]
  by_cases h : rd = 0#5 <;> simp [h]

/-- All that a write-back leaves unchanged, and the end of the cycle it makes. -/
theorem State.writeBack_frame (s : State) (rd : RegIdx) (v : Word) :
    RegsKeptExcept rd s (s.writeBack rd v) ∧ DataKept s (s.writeBack rd v) ∧ LaunchKept s (s.writeBack rd v) ∧
      Retired s (s.writeBack rd v) := by
  refine ⟨fun r hr => ?_, fun a => by simp, ⟨fun a => by simp, by simp⟩, ⟨by simp, by simp, by simp, by simp, by simp⟩⟩
  rw [State.readReg_writeBack, if_neg (fun h => hr h.1)]

theorem State.readReg_reset (r : RegIdx) : State.reset.readReg r = 0 := by
  simp [State.readReg]

/-! ## The meanings: everything each can answer -/

theorem execLw_eq (rd rs1 : RegIdx) (imm : Imm12) (ignored : BitVec 3) (s : State) :
    execLw rd rs1 imm ignored s =
      if (effectiveAddress s rs1 imm).toNat ≤ 996 then
        .next (s.writeBack rd (wordOfBytes (s.dmem.read (effectiveAddress s rs1 imm).toNat)
          (s.dmem.read ((effectiveAddress s rs1 imm).toNat + 1)) (s.dmem.read ((effectiveAddress s rs1 imm).toNat + 2))
          (s.dmem.read ((effectiveAddress s rs1 imm).toNat + 3))))
      else .fault (.loadOutOfWindow (effectiveAddress s rs1 imm) (encode (.lw rd rs1 imm ignored)) s.pc s.instrs) := by
  unfold execLw
  split
  · rename_i h
    rw [if_neg (Nat.not_le.mpr ((Memory.readWord_eq_none_iff _ _).mp h))]
    rfl
  · rename_i v h
    obtain ⟨ha, rfl⟩ := (Memory.readWord_eq_some_iff _ _ _).mp h
    rw [if_pos ha]

theorem execSw_eq (rs2 rs1 : RegIdx) (imm : Imm12) (ignored : BitVec 3) (s : State) :
    execSw rs2 rs1 imm ignored s =
      if (effectiveAddress s rs1 imm).toNat ≤ 996 then
        .next { s with dmem := s.dmem.putWord (effectiveAddress s rs1 imm).toNat (s.readReg rs2) }.retire
      else .fault (.storeOutOfWindow (effectiveAddress s rs1 imm) (encode (.sw rs2 rs1 imm ignored)) s.pc s.instrs) := by
  unfold execSw
  split
  · rename_i h
    rw [if_neg (Nat.not_le.mpr ((Memory.writeWord_eq_none_iff _ _ _).mp h))]
    rfl
  · rename_i m h
    obtain ⟨ha, rfl⟩ := (Memory.writeWord_eq_some_iff _ _ _ _).mp h
    rw [if_pos ha]
    rfl

theorem execUndefined_eq (opcode : BitVec 7) (ignored : BitVec 25) (s : State) :
    execUndefined opcode ignored s =
      if s.unknownOpcodePolicy = .nop then .next s.retire
      else .fault (.unknownOpcode (encode (.undefined opcode ignored)) s.pc s.instrs) := by
  unfold execUndefined
  cases s.unknownOpcodePolicy <;> rfl

/-- Everything an instruction that answers a next state can have done: a write-back, a store, the halt flag, or nothing,
and in each case the end of the cycle. -/
theorem exec_next_cases {i : Instr} {s t : State} (h : exec i s = .next t) :
    (∃ rd v, (i.kind = .lw ∨ i.kind = .addi ∨ i.kind = .add ∨ i.kind = .sub) ∧ t = s.writeBack rd v) ∨
    (∃ n v, i.kind = .sw ∧ n ≤ 996 ∧ t = { s with dmem := s.dmem.putWord n v }.retire) ∨
    (i.kind = .halt ∧ t = s.setHaltPending) ∨
    (i.kind = .undefined ∧ s.unknownOpcodePolicy = .nop ∧ t = s.retire) := by
  cases i with
  | lw rd rs1 imm ignored =>
    simp only [exec, execLw_eq] at h
    split at h
    · cases h; exact .inl ⟨_, _, .inl rfl, rfl⟩
    · cases h
  | addi rd rs1 imm ignored => cases h; exact .inl ⟨_, _, .inr (.inl rfl), rfl⟩
  | sw rs2 rs1 imm ignored =>
    simp only [exec, execSw_eq] at h
    split at h
    · rename_i ha; cases h; exact .inr (.inl ⟨_, _, rfl, ha, rfl⟩)
    · cases h
  | sub rd rs1 rs2 ignored => cases h; exact .inl ⟨_, _, .inr (.inr (.inr rfl)), rfl⟩
  | add rd rs1 rs2 funct7 ignored => cases h; exact .inl ⟨_, _, .inr (.inr (.inl rfl)), rfl⟩
  | halt ignored => cases h; exact .inr (.inr (.inl ⟨rfl, rfl⟩))
  | undefined opcode ignored =>
    simp only [exec, execUndefined_eq] at h
    split at h
    · rename_i hp; cases h; exact .inr (.inr (.inr ⟨rfl, hp, rfl⟩))
    · cases h

/-! ## The step -/

theorem fetch_eq_some_iff (s : State) (w : Word) :
    s.fetch = some w ↔ s.pc.toNat ≤ 996 ∧ w = wordOfBytes (s.imem.read s.pc.toNat) (s.imem.read (s.pc.toNat + 1))
      (s.imem.read (s.pc.toNat + 2)) (s.imem.read (s.pc.toNat + 3)) :=
  Memory.readWord_eq_some_iff _ _ _

theorem fetch_eq_none_iff (s : State) : s.fetch = none ↔ 996 < s.pc.toNat := Memory.readWord_eq_none_iff _ _

/-- The four ways a cycle goes (40_datapath_cycle.md R120): idle, drain, a fetch out of the window, or a dispatch. -/
theorem step_cases (s : State) :
    (s.mode = .halted ∧ step s = .next s) ∨
    (s.mode = .running ∧ s.haltPending = true ∧ step s = .next s.drain) ∨
    (s.mode = .running ∧ s.haltPending = false ∧ s.fetch = none ∧
      step s = .fault (.fetchOutOfWindow s.pc s.instrs)) ∨
    (∃ w, s.mode = .running ∧ s.haltPending = false ∧ s.fetch = some w ∧ step s = exec (decode w) s) := by
  unfold step
  cases hm : s.mode
  · cases hp : s.haltPending
    · cases hf : s.fetch
      · exact .inr (.inr (.inl ⟨rfl, rfl, rfl, by simp [raise]⟩))
      · exact .inr (.inr (.inr ⟨_, rfl, rfl, rfl, by simp⟩))
    · exact .inr (.inl ⟨rfl, rfl, by simp⟩)
  · exact .inl ⟨rfl, rfl⟩

/-- A fetch cycle that fetches `w` is the dispatch of it. -/
theorem step_of_fetch {s : State} (hs : s.Fetching) {w : Word} (hw : s.fetch = some w) : step s = exec (decode w) s := by
  obtain ⟨hm, hp⟩ := hs
  simp [step, hm, hp, hw]

/-! ## The diagnostic output -/

theorem diagUnknownOpcode_iff (s : State) :
    s.diagUnknownOpcode = true ↔ s.Fetching ∧ ∃ w, s.fetch = some w ∧ (decode w).kind = .undefined := by
  unfold State.diagUnknownOpcode
  constructor
  · intro h
    split at h
    · rename_i hm hp hw; exact ⟨⟨hm, hp⟩, _, hw, by simpa using h⟩
    · cases h
  · rintro ⟨⟨hm, hp⟩, w, hw, hk⟩
    simp [hm, hp, hw, hk]

/-- However a cycle ends, it shows the diagnostic of the state it began with. -/
@[simp] theorem cycle_diagUnknownOpcode (s : State) : (cycle s).2.diagUnknownOpcode = s.diagUnknownOpcode := by
  unfold cycle
  split <;> rfl

end Sys2Proof.Machine
end

