-- ==== Sys2Proof/Laws/PerInstr.lean ====
section
/-! SUPPORT. A fact about the encoding of each instruction, one lemma per constructor: the opcode field of its word is its opcode, where the decoder looks for it. -/

namespace Sys2Proof.Laws.OpcodeField

/-- The opcode field of the encoded word is the opcode of 30_encoding.md R101. -/
def Statement (i : Instr) : Prop := fieldOpcode (encode i) = i.opcode

/-- The low seven bits of a concatenation that ends in seven bits. -/
theorem low_seven {n : Nat} (hi : BitVec n) (lo : BitVec 7) : (hi ++ lo).extractLsb' 0 7 = lo := by
  ext k hk
  simp [BitVec.getLsbD_append, hk]

theorem lw (rd rs1 : RegIdx) (imm : Imm12) (ignored : BitVec 3) : Statement (.lw rd rs1 imm ignored) :=
  low_seven _ _

theorem addi (rd rs1 : RegIdx) (imm : Imm12) (ignored : BitVec 3) : Statement (.addi rd rs1 imm ignored) :=
  low_seven _ _

theorem sw (rs2 rs1 : RegIdx) (imm : Imm12) (ignored : BitVec 3) : Statement (.sw rs2 rs1 imm ignored) :=
  low_seven _ _

theorem sub (rd rs1 rs2 : RegIdx) (ignored : BitVec 3) : Statement (.sub rd rs1 rs2 ignored) :=
  low_seven _ _

theorem add (rd rs1 rs2 : RegIdx) (funct7 : BitVec 7) (ignored : BitVec 3) :
    Statement (.add rd rs1 rs2 funct7 ignored) :=
  low_seven _ _

theorem halt (ignored : BitVec 25) : Statement (.halt ignored) := low_seven _ _

theorem undefined (opcode : BitVec 7) (ignored : BitVec 25) : Statement (.undefined opcode ignored) := low_seven _ _

end Sys2Proof.Laws.OpcodeField
end

