-- ==== Sys2Proof/Laws/Text.lean ====
section
/-! SUPPORT. What each function from a text to an image accepts (20_memory.md R78, R79, 70_reset_and_hazards.md R233). -/

namespace Sys2Proof.Machine

theorem bitsValue_isSome_iff (line : List Char) (acc : Nat) :
    (∃ v, bitsValue line acc = some v) ↔ ∀ c ∈ line, c = '0' ∨ c = '1' := by
  induction line generalizing acc with
  | nil => simp [bitsValue]
  | cons c rest ih => unfold bitsValue; split <;> simp_all

theorem parseByteLine_ok_iff (line : List Char) :
    (∃ b, parseByteLine line = .ok b) ↔ line.length = 8 ∧ ∀ c ∈ line, c = '0' ∨ c = '1' := by
  unfold parseByteLine
  rw [← bitsValue_isSome_iff line 0]
  split
  · rename_i h; split <;> simp [*]
  · rename_i h; simp [h]

theorem parseLines_ok_iff (lines : List (List Char)) :
    (∃ bytes, parseLines lines = .ok bytes) ↔ ∀ line ∈ lines, line.length = 8 ∧ ∀ c ∈ line, c = '0' ∨ c = '1' := by
  induction lines with
  | nil => simp [parseLines]
  | cons line rest ih =>
    rw [List.forall_mem_cons, ← parseByteLine_ok_iff, ← ih]
    simp only [parseLines]
    cases parseByteLine line <;> cases parseLines rest <;> simp

/-- An image has one byte for each line of its text. -/
theorem parseLines_length {lines : List (List Char)} {bytes : List Byte} (h : parseLines lines = .ok bytes) :
    bytes.length = lines.length := by
  induction lines generalizing bytes with
  | nil => cases h; rfl
  | cons line rest ih =>
    unfold parseLines at h
    split at h
    · cases h; simp [ih ‹_›]
    · cases h
    · cases h

theorem parseImage_ok_iff (lines : List (List Char)) : (∃ bytes, parseImage lines = .ok bytes) ↔ ImageTextOk lines := by
  unfold parseImage ImageTextOk
  rw [← parseLines_ok_iff]
  split
  · rename_i h; have : lines.length ≤ 1000 := h; simp [this]
  · rename_i h; have : ¬ lines.length ≤ 1000 := h; simp [this]

/-- An image that was read fits its store, so `loadImage` takes it. -/
theorem parseImage_length_le {lines : List (List Char)} {bytes : List Byte} (h : parseImage lines = .ok bytes) :
    bytes.length ≤ memSize := by
  unfold parseImage at h
  split at h
  · rw [parseLines_length h]; assumption
  · cases h

@[simp] theorem readSource_none : readSource none = .error .missing := rfl
@[simp] theorem readSource_some (lines : List (List Char)) : readSource (some lines) = parseImage lines := rfl

end Sys2Proof.Machine
end

