-- ==== Sys2Proof/Tests/Slice0.lean ====
section
/-! SUPPORT. The tests: the checks of WellFormed, words written out from the spec's encodings, one step of each instruction with
the results of 95_test_vectors.md, the text forms, and for each statement with hypotheses a witness that meets them. -/

namespace Sys2Proof.Tests

open Sys2Proof Sys2Proof.Machine

/-! ## Helpers -/

/-- The machine after reset with these registers written. -/
def withRegs (l : List (RegIdx × Word)) : State := l.foldl (fun s p => s.writeReg p.1 p.2) State.reset

/-- The state with the Word `w` at data address `n`. -/
def withData (n : Nat) (w : Word) (s : State) : State := { s with dmem := s.dmem.putWord n w }

/-- The state with the instruction word `w` at the pc. -/
def running (w : Word) (s : State) : State := { s with imem := s.imem.putWord s.pc.toNat w }

/-- Whether an outcome is a next state with the property. -/
def nextWith (o : Host.Outcome State Fault Refusal) (p : State → Bool) : Bool :=
  match o with
  | .next t => p t
  | .fault _ => false
  | .refused _ => false

/-- The record of an outcome that is a fault. -/
def recordOf (o : Host.Outcome State Fault Refusal) : Option FaultRecord :=
  match o with
  | .next _ => none
  | .fault f => some f.record
  | .refused _ => none

/-! ## WellFormed: an ill-formed term for each check, and the terms beside it -/

theorem test_wf_refuses_add_with_the_funct7_of_sub : (Instr.add 3 1 2 0x20 0).wf = false := by decide
theorem test_wf_accepts_add_with_another_funct7 : (Instr.add 3 1 2 0x21 0).wf = true := by decide
theorem test_wf_refuses_undefined_with_a_defined_opcode :
    ∀ opcode ∈ definedOpcodes, (Instr.undefined opcode 0).wf = false := by decide
theorem test_wf_accepts_undefined_with_opcode_0x73 : (Instr.undefined 0x73 0).wf = true := by decide
/-- 45_halt_and_undefined.md R182: 123 of the 128 opcodes are undefined. -/
theorem test_wf_leaves_123_undefined_opcodes :
    ((List.range 128).filter (fun n => (Instr.undefined (BitVec.ofNat 7 n) 0).wf)).length = 123 := by decide +kernel

/-! ## Decode: words written out from 30_encoding.md R92 to R95, and the rows of 95_test_vectors.md 2.1 -/

/-- imm 4, rs1 1, ignored 010, rd 2, opcode 0000011 (R92). -/
theorem test_decode_lw : decode 0b000000000100_00001_010_00010_0000011#32 = .lw 2 1 4 0b010 := by decide
/-- imm -1, rs1 1, ignored 000, rd 2, opcode 0010011 (R92). -/
theorem test_decode_addi : decode 0b111111111111_00001_000_00010_0010011#32 = .addi 2 1 0xFFF 0 := by decide
/-- imm[11:5] 1111111, rs2 1, rs1 2, ignored 010, imm[4:0] 11100, opcode 0100011 (R93). -/
theorem test_decode_sw : decode 0b1111111_00001_00010_010_11100_0100011#32 = .sw 1 2 0xFFC 0b010 := by decide
/-- funct7 0100000, rs2 2, rs1 1, ignored 000, rd 3, opcode 0110011 (R94). -/
theorem test_decode_sub : decode 0b0100000_00010_00001_000_00011_0110011#32 = .sub 3 1 2 0 := by decide
/-- funct7 1100000 (bit 30 set, but not 0x20), rs2 2, rs1 1, ignored 101, rd 3, opcode 0110011 (R94, R172). -/
theorem test_decode_add : decode 0b1100000_00010_00001_101_00011_0110011#32 = .add 3 1 2 0x60 5 := by decide
/-- Any bits 31:7, opcode 1111111 (R95). -/
theorem test_decode_halt : decode 0b1000000000000000000000001_1111111#32 = .halt 0x1000001 := by decide
/-- The all-zero word has the undefined opcode 0 (R107). -/
theorem test_decode_undefined : decode 0x00000000#32 = .undefined 0 0 := by decide
/-- 95_test_vectors.md 2.1, the row of 0x80000093: every field is read whatever the kind. -/
theorem test_decode_record :
    decodeRecord 0x80000093#32 = ⟨.addi, 1, 0, 0, 0xFFFFF800, BitVec.ofInt 32 (-2047)⟩ := by decide
/-- S1 of 95_test_vectors.md: the image bytes 00 50 00 93 are the word of `addi x1, x0, 5`. -/
theorem test_decodeBytes_big_endian :
    decodeBytes [0x00, 0x50, 0x00, 0x93, 0xFF] = .ok (.addi 1 0 5 0, [0xFF]) := by decide
theorem test_decodeBytes_truncated : decodeBytes [0x00, 0x50, 0x00] = .error .truncated := by decide
theorem test_decodeTableWord_reads_the_word : decodeTableWord 32 0x402081B3 = some (.sub 3 1 2 0) := by decide
theorem test_decodeTableWord_refuses_a_longer_word : decodeTableWord 64 0x402081B3 = none := by decide

/-! ## One step of each instruction (95_test_vectors.md 2.3 to 2.8) -/

/-- `lw x2, 5(x1)` with x1 = 0xFFFFFFFF: the address wraps to 4 (2.3). -/
theorem test_lw_wraps_the_address :
    nextWith (step (running 0x0050A103 (withData 4 0xDEADBEEF (withRegs [(1, 0xFFFFFFFF)]))))
      (fun t => t.readReg 2 == 0xDEADBEEF && t.pc == 4) = true := by decide
/-- `lw x2, -4(x0)`: fault code 2 at 0xFFFFFFFC (2.3). -/
theorem test_lw_faults_below_the_window :
    recordOf (step (running 0xFFC02103 State.reset)) =
      some ⟨2, .outOfWindow, some .dmem, some .load, 0xFFFFFFFC, 0, some 0xFFC02103, 0⟩ := by decide
/-- `addi x1, x1, 1` with x1 = 0x7FFFFFFF (2.4). -/
theorem test_addi_reads_before_it_writes_and_wraps :
    nextWith (step (running 0x00108093 (withRegs [(1, 0x7FFFFFFF)])))
      (fun t => t.readReg 1 == 0x80000000 && t.instrs == 1) = true := by decide
/-- `addi x0, x0, 5`: no register changes, pc + 4 (2.4). -/
theorem test_addi_to_register_zero :
    nextWith (step (running 0x00500013 State.reset)) (fun t => t.regs == State.reset.regs && t.pc == 4) = true := by
  decide
/-- `sw x2, -4(x1)` with x2 = 0x11223344 and x1 = 8 (2.5). -/
theorem test_sw_is_big_endian :
    nextWith (step (running 0xFE20AE23 (withRegs [(2, 0x11223344), (1, 8)])))
      (fun t => t.dmem == [(4, 0x11#8), (5, 0x22#8), (6, 0x33#8), (7, 0x44#8)]) = true := by decide
/-- `sw x1, 997(x0)`: fault code 3 (2.5). -/
theorem test_sw_faults_at_997 :
    recordOf (step (running 0x3E1022A3 State.reset)) =
      some ⟨3, .outOfWindow, some .dmem, some .store, 997, 0, some 0x3E1022A3, 0⟩ := by decide
/-- `sub x3, x1, x2` of 12 and 30 (2.6). -/
theorem test_sub_wraps :
    nextWith (step (running 0x402081B3 (withRegs [(1, 12), (2, 30)]))) (fun t => t.readReg 3 == 0xFFFFFFEE) = true := by
  decide
/-- The word RV32M reads as `mul` adds 6 and 7 (2.6). -/
theorem test_add_with_another_funct7 :
    nextWith (step (running 0x022081B3 (withRegs [(1, 6), (2, 7)]))) (fun t => t.readReg 3 == 13) = true := by decide
/-- `halt` leaves x31 and the pc, and the engine RUNNING with the flag set (2.7). -/
theorem test_halt_writes_nothing :
    nextWith (step (running 0xFFFFFFFF (withRegs [(31, 9)])))
      (fun t => t.readReg 31 == 9 && t.pc == 0 && t.haltPending && !t.isHalted && t.cycles == 1 && t.instrs == 0) =
      true := by decide
/-- An undefined opcode under NOP advances the pc and counts (2.7). -/
theorem test_undefined_under_nop :
    nextWith (step (running 0x00000073 State.reset)) (fun t => t.pc == 4 && t.instrs == 1) = true := by decide
/-- An undefined opcode under FAULT (2.7). -/
theorem test_undefined_under_fault :
    recordOf (step { State.reset with unknownOpcodePolicy := .fault }) =
      some ⟨4, .unknownOpcode, none, none, 0, 0, some 0, 0⟩ := by decide
/-- Fetch at pc = 1000 (2.8). -/
theorem test_fetch_faults_at_1000 :
    recordOf (step { State.reset with pc := 1000, cycles := 250, instrs := 250 }) =
      some ⟨1, .outOfWindow, some .imem, some .fetch, 1000, 1000, none, 250⟩ := by decide
/-- The probe of the host runs its word first after reset. -/
theorem test_withFetchWord :
    nextWith (step (State.reset.withFetchWord 32 0x00500093)) (fun t => t.readReg 1 == 5) = true := by decide

/-! ## A run, its records and its text (S1 of 95_test_vectors.md 1.2; 1.3; 2.7) -/

/-- The core of S1: `addi x1, x0, 5` then `halt`. -/
def coreS1 : State := { State.reset with imem := (Memory.putWord [] 0 0x00500093).putWord 4 0xFFFFFFFF }

theorem test_S1_trace : driveTrace 3 coreS1 = [⟨0, 4, false⟩, ⟨1, 4, true⟩, ⟨2, 4, true⟩] := by decide
theorem test_S1_final :
    (match drive 3 coreS1 with
      | .final t => t.readReg 1 == 5 && t.pc == 4 && t.instrs == 1 && t.cycles == 3
      | .aborted _ _ => false
      | .unfinished _ => false) = true := by decide
/-- CPI 3 after S1, and the sentinel after the program `halt` alone (40_datapath_cycle.md R138). -/
theorem test_summary :
    summary { State.reset with cycles := 3, instrs := 1 } = ⟨3, 1, some 3⟩ ∧
      summary { State.reset with cycles := 2 } = ⟨2, 0, none⟩ := by
  constructor <;> simp [summary, State.reset]
theorem test_wordLine_of_5 : wordLine 5 = "00000000000000000000000000000101".toList := by decide
theorem test_byteLine_0x93 : byteLine 0x93 = "10010011".toList := by decide
theorem test_parseByteLine_0x93 : parseByteLine "10010011".toList = .ok 0x93 := by decide
/-- A missing source and an empty text are not the same: a text of no lines is a short image (20_memory.md R79). -/
theorem test_readSource : readSource none = .error .missing ∧ readSource (some []) = .ok [] := by decide
theorem test_parseByteLine_rejects : parseByteLine "1001001x".toList = .error .malformedLine := by decide

/-! ## The ALU select (30_encoding.md R103, R104) -/

theorem test_alu_op_of_halt_is_add : (controlTable .halt .nop).aluOp = .add ∧ (controlTable .sub .nop).aluOp = .sub := by
  decide

/-! ## The assembler (words of 95_test_vectors.md; 30_encoding.md R108) -/

theorem test_assemble_addi : assemble "addi x2, x1, -1".toList = some 0xFFF08113 := by decide
theorem test_assemble_lw : assemble "lw x2, 996(x0)".toList = some 0x3E402103 := by decide
theorem test_assemble_sw : assemble "sw x2,-4(x1)".toList = some 0xFE20AE23 := by decide
theorem test_assemble_sub : assemble "sub x3, x1, x2".toList = some 0x402081B3 := by decide
theorem test_assemble_halt : assemble "halt".toList = some 0xFFFFFFFF := by decide
theorem test_assemble_nop : assemble "nop".toList = some 0x00000013 := by decide
/-- The model's own choice, log entry 12. -/
theorem test_assemble_accepts_leading_zeros : assemble "addi x1, x0, 007".toList = some 0x00700093 := by decide
theorem test_assemble_rejects_x32 : assemble "add x32, x1, x2".toList = none := by decide
theorem test_assemble_rejects_2048 : assemble "addi x1, x0, 2048".toList = none := by decide

/-! ## Witnesses: for each statement with hypotheses, a state and operands that meet them, clause by clause -/

/-- A core with the word `w` at address 996, the last one a fetch can serve. -/
def atTop (w : Word) : State := running w { State.reset with pc := 996, cycles := 249, instrs := 249 }

/-- A core whose next cycle drains. -/
def draining : State := { State.reset with haltPending := true, cycles := 1 }

/-- A core that has halted. -/
def halted : State := { State.reset with mode := .halted, haltPending := true, cycles := 2 }

theorem witness_DecodeOfEncodeIsTheInstruction :
    (Instr.lw 31 0 0x800 7).wf ∧ (Instr.addi 0 31 0x7FF 0).wf ∧ (Instr.sw 31 31 0xFFF 7).wf ∧ (Instr.sub 1 2 3 4).wf ∧
      (Instr.add 1 2 3 0x60 4).wf ∧ (Instr.halt 0).wf ∧ (Instr.undefined 0x7E 0x1FFFFFF).wf := by decide
/-- The SUB word matches the SUB row and the ADD row. -/
theorem witness_TheTableInMatchingOrderDecidesTheKind :
    ∃ r ∈ opcodeTable, ∃ r' ∈ opcodeTable, r.kind = .sub ∧ r'.kind = .add ∧
      0x402081B3#32 &&& r.mask = r.pattern ∧ 0x402081B3#32 &&& r'.mask = r'.pattern := by decide
theorem witness_ImmediatesAreSignExtendedFromBitEleven :
    (0x80000093#32).getLsbD 31 = true ∧ (0x7FF00093#32).getLsbD 31 = false := by decide
theorem witness_BitsTheDecoderIgnoresChangeNoNextState :
    (∃ t, (0x00309093#32 &&& 0xFFFF8FFF#32 = 0x00308093#32 &&& 0xFFFF8FFF#32) ∧
      exec (decode 0x00309093#32) State.reset = .next t) ∧
    (∃ t, (fieldOpcode 0x002081B3#32 = 0x33#7 ∧ fieldFunct7 0x002081B3#32 ≠ 0x20#7 ∧ fieldFunct7 0x422081B3#32 ≠ 0x20#7 ∧
      0x002081B3#32 &&& 0x01FFFFFF#32 = 0x422081B3#32 &&& 0x01FFFFFF#32) ∧
      exec (decode 0x002081B3#32) State.reset = .next t) ∧
    (∃ t, (fieldOpcode 0xFFFFFFFF#32 = 0x7F#7 ∧ fieldOpcode 0x0000007F#32 = 0x7F#7) ∧
      exec (decode 0xFFFFFFFF#32) State.reset = .next t) ∧
    (∃ t, ((decode 0x00000000#32).kind = .undefined ∧ (decode 0xFFFFFFF3#32).kind = .undefined) ∧
      exec (decode 0x00000000#32) State.reset = .next t) :=
  ⟨⟨_, by decide, rfl⟩, ⟨_, by decide, rfl⟩, ⟨_, by decide, rfl⟩, ⟨_, by decide, rfl⟩⟩
/-- The last address in the window, reached by a wrap below 0 too. -/
theorem witness_LwLoadsTheWordAtBasePlusOffset :
    (effectiveAddress State.reset 0 996).toNat = 996 ∧
      (effectiveAddress (withRegs [(1, 0xFFFFFFFF)]) 1 1).toNat = 0 := by decide
theorem witness_SwStoresTheWordAtBasePlusOffset :
    (withData 3 0x01020304 State.reset).dmem.wf = true ∧
      (effectiveAddress (withData 3 0x01020304 State.reset) 0 996).toNat = 996 := by decide
theorem witness_TheWholeFunct7SelectsSubtraction :
    fieldOpcode 0x402081B3#32 = 0x33#7 ∧ (decodeRecord 0x402081B3#32).rd ≠ 0#5 ∧ fieldFunct7 0x402081B3#32 = 0x20#7 ∧
      fieldOpcode 0x422081B3#32 = 0x33#7 ∧ (decodeRecord 0x422081B3#32).rd ≠ 0#5 ∧ fieldFunct7 0x422081B3#32 ≠ 0x20#7 := by
  decide
theorem witness_ArithmeticWrapsUnderBothReadings : (31#5 : RegIdx) ≠ 0#5 := by decide
theorem witness_UndefinedOpcodeIsANoOpOrAFaultByPolicy :
    State.reset.unknownOpcodePolicy = .nop ∧
      { State.reset with unknownOpcodePolicy := .fault }.unknownOpcodePolicy = .fault := by decide
theorem witness_ResultsForRegisterZeroAreDiscarded :
    (effectiveAddress State.reset 0 996).toNat ≤ 996 ∧ 996 < (effectiveAddress State.reset 0 997).toNat := by decide
theorem witness_DataAccessesFaultExactlyOutsideTheWindow :
    (∀ k < 4, (effectiveAddress State.reset 0 996).toNat + k ≤ 999) ∧ 996 < (effectiveAddress State.reset 0 997).toNat ∧
      996 < (effectiveAddress State.reset 0 0xFFE).toNat := by decide
theorem witness_AStoredWordLoadsBackExactly :
    State.reset.dmem.wf = true ∧ (effectiveAddress (withRegs [(1, 1000)]) 1 0xFFC).toNat ≤ 996 ∧
      effectiveAddress (withRegs [(1, 1000)]) 0 996 = effectiveAddress (withRegs [(1, 1000)]) 1 0xFFC ∧
      (2#5 : RegIdx) ≠ 0#5 := by decide
/-- A load that overlaps the store in two bytes, as R70's example. -/
theorem witness_ALoadAfterAStoreReadsByteByByte :
    State.reset.dmem.wf = true ∧ (effectiveAddress State.reset 0 0).toNat ≤ 996 ∧
      (effectiveAddress State.reset 0 2).toNat ≤ 996 ∧ (2#5 : RegIdx) ≠ 0#5 := by decide
/-- ADD of x1 and x2, in two states that differ in x3 and x4. -/
theorem witness_AnInstructionReadsOnlyItsNamedRegisters :
    (∀ q ∈ readsOf (.add 3 1 2 0 0),
      State.readReg { withRegs [(1, 6)] with regs := (withRegs [(1, 6), (3, 9), (4, 9)]).regs } q =
        (withRegs [(1, 6)]).readReg q) ∧ ∃ t, exec (.add 3 1 2 0 0) (withRegs [(1, 6)]) = .next t :=
  ⟨by decide, _, rfl⟩
theorem witness_AStepRunsTheDecodedInstruction :
    (atTop 0x00500093).Fetching ∧ (atTop 0x00500093).pc.toNat ≤ 996 ∧
      decodeBytes [(atTop 0x00500093).imem.read 996, (atTop 0x00500093).imem.read 997,
        (atTop 0x00500093).imem.read 998, (atTop 0x00500093).imem.read 999] = .ok (.addi 1 0 5 0, []) :=
  ⟨⟨by decide, by decide⟩, by decide, by decide⟩
theorem witness_TheDrainCycleHaltsTheEngine : draining.mode = .running ∧ draining.haltPending = true := by decide
theorem witness_StepsWhileHaltedChangeNothing : halted.mode = .halted := by decide
theorem witness_AFetchFaultsExactlyAboveTheLastWord :
    (atTop 0).Fetching ∧ (atTop 0).pc.toNat = 996 ∧
      { State.reset with pc := 1000 }.Fetching ∧ 996 < { State.reset with pc := 1000 }.pc.toNat :=
  ⟨⟨by decide, by decide⟩, by decide, ⟨by decide, by decide⟩, by decide⟩
/-- Each of the four faults is raised by a step of some state. -/
theorem witness_TheFourFaultsAndTheirRecords :
    (∃ s f, step s = .fault f ∧ f.record.code = 1) ∧ (∃ s f, step s = .fault f ∧ f.record.code = 2) ∧
      (∃ s f, step s = .fault f ∧ f.record.code = 3) ∧ (∃ s f, step s = .fault f ∧ f.record.code = 4) :=
  ⟨⟨{ State.reset with pc := 997 }, _, rfl, rfl⟩, ⟨running 0x3E502103 State.reset, _, rfl, rfl⟩,
    ⟨running 0xFE002E23 State.reset, _, rfl, rfl⟩,
    ⟨running 0x00000073 { State.reset with unknownOpcodePolicy := .fault }, _, rfl, rfl⟩⟩
theorem witness_AFaultingCycleCommitsNothing : ∃ f, step (running 0xFE002E23 State.reset) = .fault f := ⟨_, rfl⟩
theorem witness_UnknownOpcodeFollowsThePolicy :
    State.reset.Fetching ∧ State.reset.fetch = some 0 ∧ (decode 0).kind = .undefined ∧
      State.reset.unknownOpcodePolicy = .nop ∧
      { State.reset with unknownOpcodePolicy := .fault }.Fetching ∧
      { State.reset with unknownOpcodePolicy := .fault }.fetch = some 0 :=
  ⟨⟨by decide, by decide⟩, by decide, by decide, by decide, ⟨by decide, by decide⟩, by decide⟩
/-- An undefined opcode under each policy, and a cycle that faults on a load. -/
theorem witness_TheDiagnosticMarksUndefinedOpcodesOnly :
    ((∃ t, step (running 0x00000073 State.reset) = .next t) ∧
      (cycle (running 0x00000073 State.reset)).2.diagUnknownOpcode = true) ∧
    ((∃ f, step (running 0x00000073 { State.reset with unknownOpcodePolicy := .fault }) = .fault f) ∧
      (cycle (running 0x00000073 { State.reset with unknownOpcodePolicy := .fault })).2.diagUnknownOpcode = true) ∧
    ((∃ f, step (running 0xFFC02103 State.reset) = .fault f) ∧
      (cycle (running 0xFFC02103 State.reset)).2.diagUnknownOpcode = false) :=
  ⟨⟨⟨_, rfl⟩, by decide⟩, ⟨⟨_, rfl⟩, by decide⟩, ⟨_, rfl⟩, by decide⟩
/-- A fetch cycle, the cycle of a HALT at the last address, the drain cycle and a step while HALTED complete. Serves the
statements about any completing step: ThePcMovesByFourExceptOnHaltAndDrain, TheCountersCountCyclesAndRealInstructions,
OnlyTheDrainCycleHalts, OnlyHaltSetsThePendingFlag. -/
theorem witness_steps_complete :
    (∃ t, step (running 0x00500093 State.reset) = .next t ∧ t.pc = 4 ∧ t.instrs = 1) ∧
    (∃ t, step (atTop 0xFFFFFFFF) = .next t ∧ t.pc = 996 ∧ t.instrs = 249 ∧ t.haltPending = true) ∧
    (∃ t, step draining = .next t ∧ t.mode = .halted ∧ t.cycles = 2) ∧
    (∃ t, step halted = .next t ∧ t.cycles = 2) :=
  ⟨⟨_, rfl, rfl, rfl⟩, ⟨_, rfl, rfl, rfl, rfl⟩, ⟨_, rfl, rfl, rfl⟩, ⟨_, rfl, rfl⟩⟩
/-- The fetched words of the same statements: a real instruction and a HALT. -/
theorem witness_fetching :
    (running 0x00500093 State.reset).Fetching ∧ (running 0x00500093 State.reset).fetch = some 0x00500093 ∧
      (atTop 0xFFFFFFFF).Fetching ∧ (atTop 0xFFFFFFFF).fetch = some 0xFFFFFFFF :=
  ⟨⟨by decide, by decide⟩, by decide, ⟨by decide, by decide⟩, by decide⟩
theorem witness_TheInstructionStoreIsNeverWritten : ∃ t, stepN 3 coreS1 = .next t := ⟨_, rfl⟩
theorem witness_OnlyWriteBackChangesARegister :
    ∃ t, step (running 0x00500093 State.reset) = .next t ∧
      t.readReg 1 ≠ (running 0x00500093 State.reset).readReg 1 := ⟨_, rfl, by decide⟩
theorem witness_OnlySwChangesTheDataStore :
    (running 0x3E102223 (withRegs [(1, 0x123)])).dmem.wf = true ∧
      ∃ t, step (running 0x3E102223 (withRegs [(1, 0x123)])) = .next t ∧
        t.dmem.read 999 ≠ (running 0x3E102223 (withRegs [(1, 0x123)])).dmem.read 999 :=
  ⟨by decide, _, rfl, by decide⟩
theorem witness_NothingIsWrittenOnceAHaltIsPending : draining.haltPending = true := by decide
theorem witness_ThePlacedWordRunsNext : 32 ≤ 32 ∧ (atTop 0xFFFFFFFF).imem.wf = true := by decide
theorem witness_EveryStepKeepsTheMachineInvariant :
    (running 0x00500093 State.reset).Inv ∧ (∃ t, step (running 0x00500093 State.reset) = .next t) ∧
      (atTop 0xFFFFFFFF).Inv ∧ (∃ t, step (atTop 0xFFFFFFFF) = .next t) ∧
      draining.Inv ∧ (∃ t, step draining = .next t) :=
  ⟨by constructor <;> decide, ⟨_, rfl⟩, by constructor <;> decide, ⟨_, rfl⟩, by constructor <;> decide, ⟨_, rfl⟩⟩

/-- The image of S1, shorter than the store. -/
def imageS1 : List Byte := [0x00, 0x50, 0x00, 0x93, 0xFF, 0xFF, 0xFF, 0xFF]

/-- The core built from S1's image, the open bytes 0 in the Instruction Store and 0xA5 in the Data Store, exists. -/
theorem witness_ConstructionSetsEveryPieceOfState :
    ∃ s, State.construct .nop imageS1 (fun _ => 0) [] (fun _ => 0xA5) = .ok s := by
  simp [State.construct, loadImage, memSize, imageS1]
/-- Two texts the collaborator accepts, and one it does not. -/
theorem witness_TheLaunchFailsExactlyOnMalformedText :
    ImageTextOk ["00000000".toList, "01010000".toList] ∧ ImageTextOk [] ∧ ¬ ImageTextOk ["0101000".toList] := by
  simp [ImageTextOk]
/-- The source beside the missing one may be missing too, well-formed, or malformed. -/
theorem witness_AMissingSourceIsALoadFailure :
    (∀ lines, (none : Option (List (List Char))) = some lines → ImageTextOk lines) ∧
      (∀ lines, some ["01010000".toList] = some lines → ImageTextOk lines) := by
  simp [ImageTextOk]
/-- S1's image with its open bytes 0 builds the core of S1. -/
theorem construct_S1 : State.construct .nop imageS1 (fun _ => 0) [] (fun _ => 0) = .ok coreS1 := by
  have hi : Memory.ofBytes 0 (fillImage imageS1 (fun _ => 0)) = coreS1.imem := by decide +kernel
  have hd : Memory.ofBytes 0 (fillImage [] (fun _ => 0)) = [] := by decide +kernel
  simp only [State.construct, loadImage, hi, hd]
  rfl
/-- The same core for the statements about runs: after one step it fetches its HALT, and it ends final after two more. Serves
EveryRunKeepsThePcAlignedAndBounded, EveryRunEndsWithin251Steps, NInstructionsAndAHaltTakeNPlusTwoCycles and
TheSummaryOfAFinalRun. -/
theorem witness_runs_of_a_constructed_core :
    ∃ s u v, State.construct .nop imageS1 (fun _ => 0) [] (fun _ => 0) = .ok s ∧ stepN 1 s = .next u ∧ u.Fetching ∧
      u.fetch = some 0xFFFFFFFF#32 ∧ drive 3 s = .final v ∧ v.instrs = 1 ∧ v.cycles = 3 :=
  ⟨coreS1, _, _, construct_S1, rfl, ⟨rfl, rfl⟩, rfl, rfl, rfl, rfl⟩
theorem witness_NInstructionsAndAHaltTakeNPlusTwoCycles :
    ∃ u, stepN 1 coreS1 = .next u ∧ u.Fetching ∧ u.fetch = some 0xFFFFFFFF#32 ∧ fieldOpcode 0xFFFFFFFF#32 = 0x7F#7 :=
  ⟨_, rfl, ⟨rfl, rfl⟩, rfl, rfl⟩
theorem witness_ACompletingCycleShowsTheStateAfterIt :
    draining.mode = .running ∧ (∃ t, step draining = .next t) ∧ (atTop 0xFFFFFFFF).mode = .running ∧
      ∃ t, step (atTop 0xFFFFFFFF) = .next t := ⟨rfl, ⟨_, rfl⟩, rfl, ⟨_, rfl⟩⟩
theorem witness_TraceRecordsAreLabelledConsecutively : ∃ record, (driveTrace 3 coreS1)[2]? = some record := ⟨_, rfl⟩
theorem witness_TheCountersInfluenceNothing :
    SameButCounters coreS1 { coreS1 with cycles := 7, instrs := 9 } ∧ coreS1 ≠ { coreS1 with cycles := 7, instrs := 9 } :=
  ⟨rfl, by decide⟩
theorem witness_ThePolicyMattersForUndefinedOpcodesOnly :
    (atTop 0xFFFFFFFF).fetch = some 0xFFFFFFFF ∧ (decode 0xFFFFFFFF).kind ≠ .undefined := by decide
/-- The bounds of the immediate, and the two values just outside them. -/
theorem witness_AssembledWordsAreCanonicalAndDecode :
    (∃ i, (Asm.lw 1 2047 2).instr = some i) ∧ (∃ i, (Asm.sw 1 (-2048) 2).instr = some i) ∧
      (-2048 : Int) ≤ -2048 ∧ (2047 : Int) ≤ 2047 ∧ (-2049 : Int) < -2048 ∧ (2047 : Int) < 2048 :=
  ⟨⟨_, rfl⟩, ⟨_, rfl⟩, by decide, by decide, by decide, by decide⟩
/-- ADDI drives both operands of the ALU. -/
theorem witness_TheAluSubtractsExactlyForSub :
    (ports (decodeRecord 0x00500093) (controlTable .addi .nop) State.reset).aluA = some 0 ∧
      (ports (decodeRecord 0x00500093) (controlTable .addi .nop) State.reset).aluB = some 5 := by decide
theorem witness_PseudoInstructionsDoWhatTheyName :
    (31#5 : RegIdx) ≠ 0#5 ∧ (-2048 : Int) ≤ -2048 ∧ (-2048 : Int) ≤ 2047 := by decide

end Sys2Proof.Tests
end

section
/-! PROOFS. The register primitives (00_scope.md R12). -/

namespace Sys2Proof.Machine

/-- A write to x0 is discarded. -/
@[simp] theorem State.writeReg_zero (s : State) (v : Word) : s.writeReg 0#5 v = s := rfl

/-- The frame of a register write as one equation: with the old cells put back, the old state. -/
theorem State.writeReg_with_regs (s : State) (r : RegIdx) (v : Word) :
    { s.writeReg r v with regs := s.regs } = s := by
  unfold State.writeReg; split <;> rfl

/-- `readReg_writeReg` with the cases in the order of R12: x0 first, then the register written, then the others. -/
theorem State.readReg_writeReg_cases (s : State) (r q : RegIdx) (v : Word) :
    (s.writeReg r v).readReg q = if q = 0#5 then 0 else if q = r then v else s.readReg q := by
  by_cases hq : q = 0#5
  · subst hq
    simp
  · have hcond : (q = r ∧ r ≠ 0#5) ↔ q = r := and_iff_left_of_imp fun hqr => hqr ▸ hq
    simp only [State.readReg_writeReg, hcond, if_neg hq]

/-- Settles O9: each clause is one rule of the register file. -/
theorem registerPrimitivesHardwireRegisterZero : Obligations.RegisterPrimitivesHardwireRegisterZero :=
  fun s i j v =>
    ⟨s.readReg_zero, s.writeReg_zero v, s.readReg_writeReg_cases i j v, s.writeReg_with_regs i v⟩

end Sys2Proof.Machine
end

section
/-! PROOFS. What the decoder's record says of the decoded instruction (30_encoding.md R96). -/

namespace Sys2Proof

open Machine

theorem decodeRecord_kind (w : Word) : (decodeRecord w).kind = (decode w).kind := (decode_kind w).symm

/-- The kind is HALT exactly for the opcode 0x7F (30_encoding.md R101). -/
theorem decode_kind_eq_halt_iff (w : Word) : (decode w).kind = .halt ↔ fieldOpcode w = 0x7F#7 := by
  rw [decode_kind, kindOf]
  constructor
  · intro h
    by_contra hne
    rw [if_neg hne] at h
    split_ifs at h
  · intro h
    simp [h]

/-- The four kinds that write a register (10_state.md R23). -/
theorem kind_of_writesOf_eq_some {i : Instr} {r : RegIdx} (h : writesOf i = some r) :
    i.kind = .lw ∨ i.kind = .addi ∨ i.kind = .add ∨ i.kind = .sub := by
  cases i <;> simp_all [writesOf, Instr.kind]

/-- The register a decoded instruction writes is the record's `rd`. -/
theorem eq_decodeRecord_rd_of_writesOf {w : Word} {r : RegIdx} (h : writesOf (decode w) = some r) :
    r = (decodeRecord w).rd := by
  unfold decode at h
  split at h <;> cases h <;> rfl

/-- The base register and the immediate of a decoded SW are the record's `rs1` and `immS`. -/
theorem decodeRecord_of_decode_eq_sw {w : Word} {rs2 rs1 : RegIdx} {imm : Imm12} {ignored : BitVec 3}
    (h : decode w = .sw rs2 rs1 imm ignored) :
    (decodeRecord w).kind = .sw ∧ (decodeRecord w).rs1 = rs1 ∧ (decodeRecord w).immS = sext imm := by
  refine ⟨by rw [decodeRecord_kind, h]; rfl, ?_⟩
  unfold decode at h
  split at h <;> cases h
  exact ⟨rfl, rfl⟩

end Sys2Proof
end

section
/-! PROOFS. What an instruction that completes, or faults, can have done (40_datapath_cycle.md R124 to R130). -/

namespace Sys2Proof.Machine

/-! ## `Retired` -/

theorem State.retire_retired (s : State) : Retired s s.retire := ⟨rfl, rfl, rfl, rfl, rfl⟩

/-- A store before `retire` moves nothing of the engine. -/
theorem State.retire_with_dmem_retired (s : State) (m : Memory) : Retired s { s with dmem := m }.retire :=
  ⟨rfl, rfl, rfl, rfl, rfl⟩

theorem State.writeBack_retired (s : State) (rd : RegIdx) (v : Word) : Retired s (s.writeBack rd v) :=
  (s.writeBack_frame rd v).2.2.2

/-! ## When an instruction completes -/

theorem exec_lw_eq_next_iff (rd rs1 : RegIdx) (imm : Imm12) (ignored : BitVec 3) (s t : State) :
    exec (.lw rd rs1 imm ignored) s = .next t ↔
      ∃ v, s.dmem.readWord (effectiveAddress s rs1 imm) = some v ∧ t = s.writeBack rd v := by
  simp only [exec, execLw]
  cases s.dmem.readWord (effectiveAddress s rs1 imm) <;> simp [raise, eq_comm]

theorem exec_sw_eq_next_iff (rs2 rs1 : RegIdx) (imm : Imm12) (ignored : BitVec 3) (s t : State) :
    exec (.sw rs2 rs1 imm ignored) s = .next t ↔
      ∃ m, s.dmem.writeWord (effectiveAddress s rs1 imm) (s.readReg rs2) = some m ∧ t = { s with dmem := m }.retire := by
  simp only [exec, execSw, regOperand]
  cases s.dmem.writeWord (effectiveAddress s rs1 imm) (s.readReg rs2) <;> simp [raise, eq_comm]

theorem exec_undefined_eq_next_iff (opcode : BitVec 7) (ignored : BitVec 25) (s t : State) :
    exec (.undefined opcode ignored) s = .next t ↔ s.unknownOpcodePolicy = .nop ∧ t = s.retire := by
  simp only [exec, execUndefined]
  cases s.unknownOpcodePolicy <;> simp [raise, eq_comm]

/-! ## What it then did -/

/-- What changes a register or a byte: a write-back to the register `writesOf` names, a store at the effective address of
an SW; every other completion keeps both (10_state.md R23, R37). -/
theorem exec_next_effect {i : Instr} {s t : State} (h : exec i s = .next t) :
    (∃ rd v, writesOf i = some rd ∧ t = s.writeBack rd v) ∨
    (∃ rs2 rs1 imm ignored, i = .sw rs2 rs1 imm ignored ∧ (effectiveAddress s rs1 imm).toNat ≤ 996 ∧
      t = { s with dmem := s.dmem.putWord (effectiveAddress s rs1 imm).toNat (s.readReg rs2) }.retire) ∨
    (t.regs = s.regs ∧ t.dmem = s.dmem) := by
  cases i with
  | lw rd rs1 imm ignored =>
    obtain ⟨v, -, rfl⟩ := (exec_lw_eq_next_iff ..).mp h
    exact .inl ⟨rd, v, rfl, rfl⟩
  | addi rd rs1 imm ignored => cases h; exact .inl ⟨rd, _, rfl, rfl⟩
  | sw rs2 rs1 imm ignored =>
    obtain ⟨m, hm, rfl⟩ := (exec_sw_eq_next_iff ..).mp h
    obtain ⟨ha, rfl⟩ := (Memory.writeWord_eq_some_iff ..).mp hm
    exact .inr (.inl ⟨rs2, rs1, imm, ignored, rfl, ha, rfl⟩)
  | sub rd rs1 rs2 ignored => cases h; exact .inl ⟨rd, _, rfl, rfl⟩
  | add rd rs1 rs2 funct7 ignored => cases h; exact .inl ⟨rd, _, rfl, rfl⟩
  | halt ignored => cases h; exact .inr (.inr ⟨rfl, rfl⟩)
  | undefined opcode ignored =>
    obtain ⟨-, rfl⟩ := (exec_undefined_eq_next_iff ..).mp h
    exact .inr (.inr ⟨rfl, rfl⟩)

/-- Every instruction but HALT ends its cycle by retiring; HALT only sets its flag (40_datapath_cycle.md R129, R130). -/
theorem exec_next_retired_or_halt {i : Instr} {s t : State} (h : exec i s = .next t) :
    (i.kind ≠ .halt ∧ Retired s t) ∨ (i.kind = .halt ∧ t = s.setHaltPending) := by
  obtain ⟨rd, v, hk, rfl⟩ | ⟨n, v, hk, -, rfl⟩ | ⟨hk, rfl⟩ | ⟨hk, -, rfl⟩ := exec_next_cases h
  · exact .inl ⟨by rcases hk with hk | hk | hk | hk <;> simp [hk], s.writeBack_retired rd v⟩
  · exact .inl ⟨by simp [hk], s.retire_with_dmem_retired _⟩
  · exact .inr ⟨hk, rfl⟩
  · exact .inl ⟨by simp [hk], s.retire_retired⟩

/-- No instruction writes the Instruction Store or the launch parameter (10_state.md R36, R40). -/
theorem exec_next_launch {i : Instr} {s t : State} (h : exec i s = .next t) :
    t.imem = s.imem ∧ t.unknownOpcodePolicy = s.unknownOpcodePolicy := by
  obtain ⟨rd, v, -, rfl⟩ | ⟨n, v, -, -, rfl⟩ | ⟨-, rfl⟩ | ⟨-, -, rfl⟩ := exec_next_cases h <;> simp

theorem exec_next_dmem_wf {i : Instr} {s t : State} (hwf : s.dmem.wf = true) (h : exec i s = .next t) :
    t.dmem.wf = true := by
  obtain ⟨rd, v, -, rfl⟩ | ⟨n, v, -, hn, rfl⟩ | ⟨-, rfl⟩ | ⟨-, -, rfl⟩ := exec_next_cases h
  · simpa using hwf
  · exact Memory.wf_putWord hwf (by simp only [memSize]; omega) v
  · exact hwf
  · exact hwf

/-- No instruction takes the engine from RUNNING to HALTED or back (10_state.md R30). -/
theorem exec_next_mode {i : Instr} {s t : State} (h : exec i s = .next t) : t.mode = s.mode := by
  obtain ⟨-, hr⟩ | ⟨-, rfl⟩ := exec_next_retired_or_halt h
  · exact hr.mode
  · rfl

/-- An instruction leaves `halt_pending` as it was, but for HALT, which sets it (10_state.md R31). -/
theorem exec_next_haltPending_iff {i : Instr} {s t : State} (h : exec i s = .next t) :
    t.haltPending = true ↔ s.haltPending = true ∨ i.kind = .halt := by
  obtain ⟨hk, hr⟩ | ⟨hk, rfl⟩ := exec_next_retired_or_halt h
  · simp [hr.haltPending, hk]
  · simp [hk]

/-- A changed register is the one the instruction writes, and not x0 (10_state.md R23, R24). -/
theorem exec_next_reg_changed {i : Instr} {s t : State} {r : RegIdx} (h : exec i s = .next t)
    (hr : t.readReg r ≠ s.readReg r) : r ≠ 0#5 ∧ writesOf i = some r := by
  refine ⟨fun h0 => hr (by subst h0; rfl), ?_⟩
  obtain ⟨rd, v, hw, rfl⟩ | ⟨rs2, rs1, imm, ignored, -, -, rfl⟩ | ⟨hregs, -⟩ := exec_next_effect h
  · rw [hw]
    by_contra hne
    exact hr ((s.writeBack_frame rd v).1 r fun hq => hne (by rw [hq]))
  · exact absurd rfl hr
  · exact absurd (State.readReg_congr hregs r) hr

/-- A changed byte is one of the four at the effective address of an SW (10_state.md R37). -/
theorem exec_next_byte_changed {i : Instr} {s t : State} {a : Nat} (hwf : s.dmem.wf = true) (h : exec i s = .next t)
    (ha : t.dmem.read a ≠ s.dmem.read a) :
    ∃ rs2 rs1 imm ignored, i = .sw rs2 rs1 imm ignored ∧
      (effectiveAddress s rs1 imm).toNat ≤ a ∧ a < (effectiveAddress s rs1 imm).toNat + 4 := by
  obtain ⟨rd, v, -, rfl⟩ | ⟨rs2, rs1, imm, ignored, hi, hin, rfl⟩ | ⟨-, hdmem⟩ := exec_next_effect h
  · exact absurd (by simp) ha
  · refine ⟨rs2, rs1, imm, ignored, hi, ?_⟩
    by_contra hout
    refine ha ?_
    rw [State.retire_dmem, Memory.read_putWord hwf (by simp only [memSize]; omega), if_neg (by omega), if_neg (by omega),
      if_neg (by omega), if_neg (by omega)]
  · exact absurd (by rw [hdmem]) ha

/-! ## When it faults -/

/-- The fault an instruction raises is `UnknownOpcode` exactly for an undefined opcode (60_exceptions.md R204). -/
theorem exec_fault_kind_iff {i : Instr} {s : State} {f : Fault} (h : exec i s = .fault f) :
    f.record.kind = .unknownOpcode ↔ i.kind = .undefined := by
  cases i with
  | lw rd rs1 imm ignored =>
    simp only [exec, execLw_eq] at h
    split at h <;> cases h
    simp [Fault.record, Instr.kind]
  | sw rs2 rs1 imm ignored =>
    simp only [exec, execSw_eq] at h
    split at h <;> cases h
    simp [Fault.record, Instr.kind]
  | undefined opcode ignored =>
    simp only [exec, execUndefined_eq] at h
    split at h <;> cases h
    simp [Fault.record, Instr.kind]
  | addi rd rs1 imm ignored => cases h
  | sub rd rs1 rs2 ignored => cases h
  | add rd rs1 rs2 funct7 ignored => cases h
  | halt ignored => cases h

/-- An undefined opcode completes only under policy NOP (60_exceptions.md R206). -/
theorem exec_next_policy_of_undefined {i : Instr} {s t : State} (h : exec i s = .next t) (hk : i.kind = .undefined) :
    s.unknownOpcodePolicy = .nop := by
  obtain ⟨rd, v, hk', -⟩ | ⟨n, v, hk', -⟩ | ⟨hk', -⟩ | ⟨-, hp, -⟩ := exec_next_cases h
  · simp [hk] at hk'
  · simp [hk] at hk'
  · simp [hk] at hk'
  · exact hp

end Sys2Proof.Machine
end

section
/-! PROOFS. The ways a cycle completes (40_datapath_cycle.md R120), and the induction over a run (R135). -/

namespace Sys2Proof.Machine

/-- A step that completes was idle, drained, or ran a fetched word. -/
theorem step_next_cases {s t : State} (h : step s = .next t) :
    (s.mode = .halted ∧ t = s) ∨
    (s.mode = .running ∧ s.haltPending = true ∧ t = s.drain) ∨
    (∃ w, s.Fetching ∧ s.fetch = some w ∧ exec (decode w) s = .next t) := by
  obtain ⟨hm, hs⟩ | ⟨hm, hp, hs⟩ | ⟨-, -, -, hs⟩ | ⟨w, hm, hp, hw, hs⟩ := step_cases s <;> rw [hs] at h
  · cases h; exact .inl ⟨hm, rfl⟩
  · cases h; exact .inr (.inl ⟨hm, hp, rfl⟩)
  · cases h
  · exact .inr (.inr ⟨w, ⟨hm, hp⟩, hw, h⟩)

/-- A step that changes a register or a byte ran a fetched word: an idle step and the drain cycle keep both. -/
theorem step_next_of_changed {s t : State} (h : step s = .next t) (hne : ¬ (t.regs = s.regs ∧ t.dmem = s.dmem)) :
    ∃ w, s.Fetching ∧ s.fetch = some w ∧ exec (decode w) s = .next t := by
  obtain ⟨-, rfl⟩ | ⟨-, -, rfl⟩ | hrun := step_next_cases h
  · exact absurd ⟨rfl, rfl⟩ hne
  · exact absurd ⟨rfl, rfl⟩ hne
  · exact hrun

/-- What every completing step keeps, every run keeps. -/
theorem stepN_induction {P : State → Prop} (hstep : ∀ s t, P s → step s = .next t → P t) (n : Nat) {s t : State}
    (hs : P s) (h : stepN n s = .next t) : P t := by
  induction n generalizing s with
  | zero => cases h; exact hs
  | succ n ih =>
    unfold stepN at h
    cases hst : step s with
    | next u => rw [hst] at h; exact ih (hstep s u hs hst) h
    | fault f => rw [hst] at h; cases h
    | refused r => rw [hst] at h; cases h

end Sys2Proof.Machine
end

section
/-! PROOFS. The machine invariant (10_state.md R28, R30 to R32, R34) through a step, at construction, and along a run. -/

namespace Sys2Proof.Machine

/-! ## `haltCycles` -/

theorem State.haltCycles_le_two (s : State) : s.haltCycles ≤ 2 := by
  unfold State.haltCycles
  split <;> split <;> omega

theorem State.haltCycles_of_fetching {s : State} (hs : s.Fetching) : s.haltCycles = 0 := by
  simp [State.haltCycles, State.isHalted, hs.running, hs.noHaltPending]

theorem State.haltCycles_setHaltPending {s : State} (hm : s.mode = .running) : s.setHaltPending.haltCycles = 1 := by
  simp [State.haltCycles, State.isHalted, hm]

theorem State.haltCycles_of_pending {s : State} (hm : s.mode = .running) (hp : s.haltPending = true) :
    s.haltCycles = 1 := by
  simp [State.haltCycles, State.isHalted, hm, hp]

theorem State.haltCycles_drain {s : State} (hp : s.haltPending = true) : s.drain.haltCycles = 2 := by
  simp [State.haltCycles, State.isHalted, hp]

/-! ## One step -/

/-- A pc that a fetch can serve leaves room for one more instruction. -/
theorem State.Inv.instrs_le_of_fetch {s : State} (hi : s.Inv) {w : Word} (hw : s.fetch = some w) : s.instrs ≤ 249 := by
  have hpc := ((fetch_eq_some_iff s w).mp hw).1
  rw [hi.pcCountsInstrs] at hpc
  omega

/-- The pc and both counters move together through a retired instruction. -/
theorem State.Inv.of_retired {s t : State} (hi : s.Inv) (hs : s.Fetching) (hn : s.instrs ≤ 249) (hr : Retired s t)
    (himem : t.imem = s.imem) (hdmem : t.dmem.wf = true) : t.Inv := by
  have ht : t.Fetching := ⟨hr.mode.trans hs.running, hr.haltPending.trans hs.noHaltPending⟩
  refine
    { imemCanonical := himem ▸ hi.imemCanonical
      dmemCanonical := hdmem
      pcCountsInstrs := ?_
      instrsInWindow := by rw [hr.instrs]; omega
      haltInWindow := fun h => absurd h (by simp [ht.noHaltPending])
      haltedWasPending := fun h => absurd h (by simp [ht.running])
      cyclesCountInstrs := ?_ }
  · have hpc := hi.pcCountsInstrs
    rw [hr.pc, hr.instrs]
    bv_omega
  · have hc := hi.cyclesCountInstrs
    rw [s.haltCycles_of_fetching hs] at hc
    rw [hr.cycles, hr.instrs, t.haltCycles_of_fetching ht]
    omega

/-- HALT freezes the pc with its instruction in the window and counts its own cycle. -/
theorem State.Inv.setHaltPending {s : State} (hi : s.Inv) (hs : s.Fetching) (hn : s.instrs ≤ 249) :
    s.setHaltPending.Inv where
  imemCanonical := hi.imemCanonical
  dmemCanonical := hi.dmemCanonical
  pcCountsInstrs := hi.pcCountsInstrs
  instrsInWindow := hi.instrsInWindow
  haltInWindow _ := hn
  haltedWasPending _ := rfl
  cyclesCountInstrs := by
    rw [State.haltCycles_setHaltPending hs.running, State.setHaltPending_cycles, State.setHaltPending_instrs,
      hi.cyclesCountInstrs, s.haltCycles_of_fetching hs]

/-- The drain cycle counts one cycle more and keeps the rest. -/
theorem State.Inv.drain {s : State} (hi : s.Inv) (hm : s.mode = .running) (hp : s.haltPending = true) : s.drain.Inv where
  imemCanonical := hi.imemCanonical
  dmemCanonical := hi.dmemCanonical
  pcCountsInstrs := hi.pcCountsInstrs
  instrsInWindow := hi.instrsInWindow
  haltInWindow := hi.haltInWindow
  haltedWasPending _ := hp
  cyclesCountInstrs := by
    rw [State.haltCycles_drain hp, State.drain_cycles, State.drain_instrs, hi.cyclesCountInstrs,
      s.haltCycles_of_pending hm hp]

theorem State.Inv.exec_next {i : Instr} {s t : State} (hi : s.Inv) (hs : s.Fetching) (hn : s.instrs ≤ 249)
    (h : exec i s = .next t) : t.Inv := by
  obtain ⟨-, hr⟩ | ⟨-, rfl⟩ := exec_next_retired_or_halt h
  · exact hi.of_retired hs hn hr (exec_next_launch h).1 (exec_next_dmem_wf hi.dmemCanonical h)
  · exact hi.setHaltPending hs hn

/-- Settles O41: the invariant through each of the ways a cycle completes. -/
theorem everyStepKeepsTheMachineInvariant : Obligations.EveryStepKeepsTheMachineInvariant := by
  intro s t hi h
  obtain ⟨-, rfl⟩ | ⟨hm, hp, rfl⟩ | ⟨w, hs, hw, hx⟩ := step_next_cases h
  · exact hi
  · exact hi.drain hm hp
  · exact hi.exec_next hs (hi.instrs_le_of_fetch hw) hx

/-! ## Construction and a run -/

/-- The invariant holds after construction, for every image and every open byte (70_reset_and_hazards.md R230). -/
theorem State.Inv.of_construct {policy : UnknownOpcodePolicy} {imemImage dmemImage : List Byte}
    {imemPad dmemPad : Nat → Byte} {s : State}
    (h : State.construct policy imemImage imemPad dmemImage dmemPad = .ok s) : s.Inv := by
  unfold State.construct at h
  split at h <;> cases h
  rename_i imem dmem himem hdmem
  exact
    { imemCanonical := loadImage_wf himem
      dmemCanonical := loadImage_wf hdmem
      pcCountsInstrs := rfl
      instrsInWindow := Nat.zero_le _
      haltInWindow := by simp
      haltedWasPending := by simp
      cyclesCountInstrs := rfl }

theorem State.Inv.stepN_next {s t : State} (hi : s.Inv) {n : Nat} (h : stepN n s = .next t) : t.Inv :=
  stepN_induction everyStepKeepsTheMachineInvariant n hi h

/-- 249 instructions and the two cycles of a HALT, or 250 instructions and no HALT (10_state.md R32). -/
theorem State.Inv.cycles_le {s : State} (hi : s.Inv) : s.cycles ≤ 251 := by
  rw [hi.cyclesCountInstrs]
  by_cases hp : s.haltPending = true
  · have hn := hi.haltInWindow hp
    have := s.haltCycles_le_two
    omega
  · have hm : s.mode = .running := by
      cases hmode : s.mode with
      | running => rfl
      | halted => exact absurd (hi.haltedWasPending hmode) hp
    have hn := hi.instrsInWindow
    rw [s.haltCycles_of_fetching ⟨hm, by simpa using hp⟩]
    omega

/-- Settles O45: the bounds are those of the invariant, which every run from a constructed core keeps. -/
theorem everyRunKeepsThePcAlignedAndBounded : Obligations.EveryRunKeepsThePcAlignedAndBounded := by
  intro policy imemImage dmemImage imemPad dmemPad s hs n t h
  have ht : t.Inv := (State.Inv.of_construct hs).stepN_next h
  have hpc := ht.pcCountsInstrs
  have hn := ht.instrsInWindow
  exact ⟨by omega, by omega, by bv_omega, ht.cycles_le, hn⟩

end Sys2Proof.Machine
end

section
/-! PROOFS. What a step changes and what it keeps: mode, `halt_pending`, the stores and the registers (10_state.md R23, R30,
R31, R36, R37). -/

namespace Sys2Proof.Machine

/-! ## The engine -/

/-- Only the drain cycle changes the mode (10_state.md R30). -/
theorem step_next_mode {s t : State} (h : step s = .next t) :
    t.mode = if s.mode = .running ∧ s.haltPending = true then .halted else s.mode := by
  obtain ⟨hm, rfl⟩ | ⟨hm, hp, rfl⟩ | ⟨w, hs, -, hx⟩ := step_next_cases h
  · simp [hm]
  · simp [hm, hp]
  · simp [exec_next_mode hx, hs.noHaltPending]

theorem step_next_mode_of_halted (s t : State) (hm : s.mode = .halted) (h : step s = .next t) : t.mode = .halted := by
  simp [step_next_mode h, hm]

/-- Settles O34: the mode after a step is that of `step_next_mode`. -/
theorem onlyTheDrainCycleHalts : Obligations.OnlyTheDrainCycleHalts := by
  refine ⟨fun m => by cases m <;> simp, rfl, rfl, fun s t h => ?_,
    fun n s t hm h => stepN_induction step_next_mode_of_halted n hm h⟩
  rw [step_next_mode h]
  by_cases hd : s.mode = .running ∧ s.haltPending = true
  · simp [hd]
  · simp [hd]

/-- Settles O35: an idle step and the drain cycle keep the flag, and an instruction changes it only where it is HALT. -/
theorem onlyHaltSetsThePendingFlag : Obligations.OnlyHaltSetsThePendingFlag := by
  intro s t h
  obtain ⟨hm, rfl⟩ | ⟨-, hp, rfl⟩ | ⟨w, hs, hw, hx⟩ := step_next_cases h
  · exact ⟨id, fun hp => ⟨fun ht => absurd ht (by simp [hp]), fun hf => absurd hf.1.running (by simp [hm])⟩⟩
  · simp [hp]
  · simp [exec_next_haltPending_iff hx, hs.noHaltPending, hs, hw, decode_kind_eq_halt_iff]

/-! ## The stores and the registers -/

theorem step_next_launch {s t : State} (h : step s = .next t) :
    t.imem = s.imem ∧ t.unknownOpcodePolicy = s.unknownOpcodePolicy := by
  obtain ⟨-, rfl⟩ | ⟨-, -, rfl⟩ | ⟨w, -, -, hx⟩ := step_next_cases h
  · exact ⟨rfl, rfl⟩
  · exact ⟨rfl, rfl⟩
  · exact exec_next_launch hx

/-- Settles O36: what no step writes, no run writes. -/
theorem theInstructionStoreIsNeverWritten : Obligations.TheInstructionStoreIsNeverWritten := by
  intro n s t h
  refine stepN_induction (P := fun u => u.imem = s.imem ∧ u.unknownOpcodePolicy = s.unknownOpcodePolicy) ?_ n ⟨rfl, rfl⟩ h
  rintro u v ⟨himem, hpol⟩ hst
  obtain ⟨himem', hpol'⟩ := step_next_launch hst
  exact ⟨himem'.trans himem, hpol'.trans hpol⟩

/-- Settles O37: the changed register is the one the fetched word writes, read back from the decoded record. -/
theorem onlyWriteBackChangesARegister : Obligations.OnlyWriteBackChangesARegister := by
  intro s t r h hr
  obtain ⟨w, hs, hw, hx⟩ := step_next_of_changed h fun hk => hr (State.readReg_congr hk.1 r)
  obtain ⟨hr0, hwr⟩ := exec_next_reg_changed hx hr
  refine ⟨hs, hr0, w, hw, eq_decodeRecord_rd_of_writesOf hwr, ?_⟩
  rw [decodeRecord_kind]
  exact kind_of_writesOf_eq_some hwr

/-- Settles O38: the changed byte is one of the four an SW stores, at the address the decoded record gives. -/
theorem onlySwChangesTheDataStore : Obligations.OnlySwChangesTheDataStore := by
  intro s t a hwf h ha
  obtain ⟨w, hs, hw, hx⟩ := step_next_of_changed h fun hk => ha (by rw [hk.2])
  obtain ⟨rs2, rs1, imm, ignored, hi, hlo, hhi⟩ := exec_next_byte_changed hwf hx ha
  obtain ⟨hk, hrs1, himm⟩ := decodeRecord_of_decode_eq_sw hi
  refine ⟨hs, w, hw, hk, ?_⟩
  rw [hrs1, himm]
  exact ⟨hlo, hhi⟩

end Sys2Proof.Machine
end

section
/-! PROOFS. What a cycle shows (10_state.md R25, R37, R40, 40_datapath_cycle.md R132 to R134). -/

namespace Sys2Proof.Machine

/-! ## The diagnostic -/

/-- A completing step on an undefined opcode is under policy NOP (60_exceptions.md R206). -/
theorem step_next_policy_of_undefined {s t : State} {w : Word} (h : step s = .next t) (hs : s.Fetching)
    (hw : s.fetch = some w) (hk : (decode w).kind = .undefined) : s.unknownOpcodePolicy = .nop := by
  rw [step_of_fetch hs hw] at h
  exact exec_next_policy_of_undefined h hk

/-- A faulting cycle shows the diagnostic where its fault is `UnknownOpcode`: a fetch out of the window decodes nothing. -/
theorem step_fault_diagUnknownOpcode_iff {s : State} {f : Fault} (h : step s = .fault f) :
    s.diagUnknownOpcode = true ↔ f.record.kind = .unknownOpcode := by
  rw [diagUnknownOpcode_iff]
  obtain ⟨-, hs⟩ | ⟨-, -, hs⟩ | ⟨-, -, hw, hs⟩ | ⟨w, hm, hp, hw, hs⟩ := step_cases s <;> rw [hs] at h
  · cases h
  · cases h
  · cases h
    simp [hw, Fault.record]
  · have hf : s.Fetching := ⟨hm, hp⟩
    simp [exec_fault_kind_iff h, hw, hf]

/-- Settles O30: the three readings of the same output. -/
theorem theDiagnosticMarksUndefinedOpcodesOnly : Obligations.TheDiagnosticMarksUndefinedOpcodesOnly := by
  intro s
  simp only [cycle_diagUnknownOpcode]
  refine ⟨diagUnknownOpcode_iff s, fun t h => ?_, fun f h => step_fault_diagUnknownOpcode_iff h⟩
  rw [diagUnknownOpcode_iff]
  constructor
  · rintro ⟨hs, w, hw, hk⟩
    exact ⟨hs, step_next_policy_of_undefined h hs hw hk, w, hw, hk⟩
  · rintro ⟨hs, -, hd⟩
    exact ⟨hs, hd⟩

/-! ## The outputs of a completing cycle -/

@[simp] theorem State.isHalted_iff (s : State) : s.isHalted = true ↔ s.mode = .halted := by simp [State.isHalted]

@[simp] theorem State.length_registerSnapshot (s : State) : s.registerSnapshot.length = 32 := by
  simp [State.registerSnapshot]

/-- Entry `r` of `rf_snapshot` is x[r] (10_state.md R25). -/
theorem State.getElem?_registerSnapshot (s : State) (r : RegIdx) :
    s.registerSnapshot[r.toNat]? = some (s.readReg r) := by
  have := r.isLt
  simp [State.registerSnapshot, this]

@[simp] theorem State.length_dataSnapshot (s : State) : s.dataSnapshot.length = 1000 := by
  simp [State.dataSnapshot, memSize]

/-- Entry `a` of `dm_snapshot` is the byte at address `a` (10_state.md R37). -/
theorem State.getElem?_dataSnapshot (s : State) {a : Nat} (ha : a < 1000) :
    s.dataSnapshot[a]? = some (s.dmem.read a) := by
  simp [State.dataSnapshot, memSize, ha]

/-- A completing cycle that began RUNNING: every output is read from the state after it. -/
theorem cycle_of_step_next {s t : State} (hm : s.mode = .running) (h : step s = .next t) :
    cycle s = (t, outputsOf t none (some (traceOf s.cycles t)) s.diagUnknownOpcode) := by
  simp [cycle, h, State.isHalted, hm]

/-- Settles O49: the outputs of `cycle_of_step_next`, and what the two snapshots hold. -/
theorem aCompletingCycleShowsTheStateAfterIt : Obligations.ACompletingCycleShowsTheStateAfterIt := by
  intro s t hm h
  simp only [cycle_of_step_next hm h, outputsOf, traceOf, true_and, and_true]
  exact ⟨t.isHalted_iff, t.length_registerSnapshot, t.getElem?_registerSnapshot, t.length_dataSnapshot,
    fun a ha => t.getElem?_dataSnapshot ha⟩

end Sys2Proof.Machine
end

section
/-! PROOFS. What an instruction and a run do not depend on: the registers it does not name (10_state.md R23) and the counters (R33). -/

namespace Sys2Proof.Machine

/-! ## Registers an instruction does not name -/

/-- An effective address depends on its base register alone (30_encoding.md R100). -/
theorem effectiveAddress_congr {s t : State} {rs1 : RegIdx} (imm : Imm12) (h : t.readReg rs1 = s.readReg rs1) :
    effectiveAddress t rs1 imm = effectiveAddress s rs1 imm :=
  congrArg (· + sext imm) h

/-- A write-back does the same to every field but the register cells, whatever those hold. -/
theorem State.writeBack_with_regs (s : State) (regs : Vector Word 31) (rd : RegIdx) (v : Word) :
    { State.writeBack { s with regs := regs } rd v with regs := (s.writeBack rd v).regs } = s.writeBack rd v := by
  unfold State.writeBack State.writeReg
  split <;> rfl

/-- One value written back in two states that differ in their registers alone: the destination reads that value in both, and
every other register reads as its own state had it. -/
theorem State.readReg_writeBack_with_regs (s : State) (regs : Vector Word 31) (rd : RegIdx) (v : Word) (q : RegIdx) :
    (State.writeBack { s with regs := regs } rd v).readReg q =
      if some rd = some q then (s.writeBack rd v).readReg q else State.readReg { s with regs := regs } q := by
  by_cases hq : rd = q
  · subst hq
    simp [State.readReg_writeBack_self]
  · rw [if_neg (by simpa using hq), State.readReg_writeBack, if_neg fun h => hq h.1.symm]

/-- Settles O22: the operands of an instruction are the same in both states, so a write-back writes the same value. -/
theorem anInstructionReadsOnlyItsNamedRegisters : Obligations.AnInstructionReadsOnlyItsNamedRegisters := by
  intro i s regs t hreads h
  cases i with
  | lw rd rs1 imm ignored =>
    obtain ⟨v, hv, rfl⟩ := (exec_lw_eq_next_iff ..).mp h
    have ha := effectiveAddress_congr imm (hreads rs1 (by simp [readsOf]))
    exact ⟨_, (exec_lw_eq_next_iff ..).mpr ⟨v, by rw [ha]; exact hv, rfl⟩, s.writeBack_with_regs regs rd v,
      s.readReg_writeBack_with_regs regs rd v⟩
  | addi rd rs1 imm ignored =>
    cases h
    simp only [exec, execAddi, regOperand, hreads rs1 (by simp [readsOf])]
    exact ⟨_, rfl, s.writeBack_with_regs regs rd _, s.readReg_writeBack_with_regs regs rd _⟩
  | sw rs2 rs1 imm ignored =>
    obtain ⟨m, hm, rfl⟩ := (exec_sw_eq_next_iff ..).mp h
    have ha := effectiveAddress_congr imm (hreads rs1 (by simp [readsOf]))
    refine ⟨_, (exec_sw_eq_next_iff ..).mpr ⟨m, ?_, rfl⟩, rfl, fun q => rfl⟩
    rw [ha, hreads rs2 (by simp [readsOf])]
    exact hm
  | sub rd rs1 rs2 ignored =>
    cases h
    simp only [exec, execSub, regOperand, hreads rs1 (by simp [readsOf]), hreads rs2 (by simp [readsOf])]
    exact ⟨_, rfl, s.writeBack_with_regs regs rd _, s.readReg_writeBack_with_regs regs rd _⟩
  | add rd rs1 rs2 funct7 ignored =>
    cases h
    simp only [exec, execAdd, regOperand, hreads rs1 (by simp [readsOf]), hreads rs2 (by simp [readsOf])]
    exact ⟨_, rfl, s.writeBack_with_regs regs rd _, s.readReg_writeBack_with_regs regs rd _⟩
  | halt ignored =>
    cases h
    exact ⟨_, rfl, rfl, fun q => rfl⟩
  | undefined opcode ignored =>
    obtain ⟨hp, rfl⟩ := (exec_undefined_eq_next_iff ..).mp h
    exact ⟨_, (exec_undefined_eq_next_iff ..).mpr ⟨hp, rfl⟩, rfl, fun q => rfl⟩

/-! ## The counters -/

/-- The state with other values of its two counters. -/
def State.withCounters (s : State) (cycles instrs : Nat) : State := { s with cycles := cycles, instrs := instrs }

/-- To differ in the counters at most is to be the same state with other counters. -/
theorem sameButCounters_iff (s s' : State) : SameButCounters s s' ↔ s' = s.withCounters s'.cycles s'.instrs := by
  cases s; cases s'
  simp [SameButCounters, State.forgetCounters, State.withCounters, eq_comm]

/-- A write-back counts on from whatever the counters were. -/
theorem State.writeBack_withCounters (s : State) (c n : Nat) (rd : RegIdx) (v : Word) :
    (s.withCounters c n).writeBack rd v = (s.writeBack rd v).withCounters (c + 1) (n + 1) := by
  unfold State.writeBack State.writeReg
  split <;> rfl

/-- No meaning reads a counter, but to raise a fault (10_state.md R33, 60_exceptions.md R202). -/
theorem exec_withCounters (i : Instr) (s : State) (c n : Nat) :
    SameOutcomeButCounters (exec i s) (exec i (s.withCounters c n)) := by
  cases i with
  | lw rd rs1 imm ignored =>
    have hd : (s.withCounters c n).dmem = s.dmem := rfl
    have ha : effectiveAddress (s.withCounters c n) rs1 imm = effectiveAddress s rs1 imm := rfl
    simp only [exec, execLw, hd, ha, State.writeBack_withCounters]
    cases s.dmem.readWord (effectiveAddress s rs1 imm) <;> rfl
  | sw rs2 rs1 imm ignored =>
    have hd : (s.withCounters c n).dmem = s.dmem := rfl
    have ha : effectiveAddress (s.withCounters c n) rs1 imm = effectiveAddress s rs1 imm := rfl
    have hr : regOperand (s.withCounters c n) rs2 = regOperand s rs2 := rfl
    simp only [exec, execSw, hd, ha, hr]
    cases s.dmem.writeWord (effectiveAddress s rs1 imm) (regOperand s rs2) <;> rfl
  | addi rd rs1 imm ignored =>
    simp only [exec, execAddi, State.writeBack_withCounters]
    rfl
  | sub rd rs1 rs2 ignored =>
    simp only [exec, execSub, State.writeBack_withCounters]
    rfl
  | add rd rs1 rs2 funct7 ignored =>
    simp only [exec, execAdd, State.writeBack_withCounters]
    rfl
  | halt ignored => rfl
  | undefined opcode ignored =>
    have hp : (s.withCounters c n).unknownOpcodePolicy = s.unknownOpcodePolicy := rfl
    simp only [exec, execUndefined, hp]
    cases s.unknownOpcodePolicy <;> rfl

/-- The counters choose no branch of a cycle either. -/
theorem step_withCounters (s : State) (c n : Nat) : SameOutcomeButCounters (step s) (step (s.withCounters c n)) := by
  have hm : (s.withCounters c n).mode = s.mode := rfl
  have hp : (s.withCounters c n).haltPending = s.haltPending := rfl
  have hf : (s.withCounters c n).fetch = s.fetch := rfl
  unfold step
  rw [hm, hp, hf]
  cases s.mode with
  | halted => rfl
  | running =>
    cases s.haltPending with
    | true => rfl
    | false =>
      cases s.fetch with
      | none => rfl
      | some w => exact exec_withCounters (decode w) s c n

/-- Settles O52: by induction on the steps, one step at a time by `step_withCounters`. -/
theorem theCountersInfluenceNothing : Obligations.TheCountersInfluenceNothing := by
  intro n
  induction n with
  | zero => exact fun s s' hss => hss
  | succ n ih =>
    intro s s' hss
    have hstep : SameOutcomeButCounters (step s) (step s') := by
      rw [(sameButCounters_iff s s').mp hss]
      exact step_withCounters s _ _
    unfold stepN
    cases hs : step s <;> cases hs' : step s' <;> rw [hs, hs'] at hstep
    case next.next t t' => exact ih t t' hstep
    case fault.fault => exact hstep
    case refused.refused => trivial
    all_goals exact hstep.elim

end Sys2Proof.Machine
end

section
/-! PROOFS. Where a data access faults (20_memory.md R65), what a load reads after a store (R69, R70), and the fetch of a placed
word (R66, R77). -/

namespace Sys2Proof.Machine

/-! ## The Data Store, Word by Word -/

/-- A byte after a store is one of the four of the stored Word, or the byte that was there. -/
theorem Memory.read_putWord_cases {m : Memory} (h : m.wf = true) {n : Nat} (hn : n ≤ 996) (v : Word) (x : Nat) :
    (m.putWord n v).read x = if n ≤ x ∧ x < n + 4 then byteOfWord v (x - n) else m.read x := by
  rw [Memory.read_putWord h (by simp only [memSize]; omega)]
  by_cases hx : n ≤ x ∧ x < n + 4
  · obtain ⟨k, rfl⟩ := Nat.exists_eq_add_of_le hx.1
    have hk : k < 4 := by omega
    rw [if_pos hx, Nat.add_sub_cancel_left]
    interval_cases k <;> simp
  · rw [if_neg hx, if_neg (by omega), if_neg (by omega), if_neg (by omega), if_neg (by omega)]

/-- A Word in the window reads back as it was put there (20_memory.md R69). -/
theorem Memory.readWord_putWord {m : Memory} (h : m.wf = true) {a : Word} (ha : a.toNat ≤ 996) (v : Word) :
    (m.putWord a.toNat v).readWord a = some v := by
  refine (Memory.readWord_eq_some_iff _ a v).mpr ⟨ha, ?_⟩
  simp [Memory.read_putWord_cases h ha]

/-- The bytes of a Word that was read are the bytes of the store (20_memory.md R66). -/
theorem Memory.byteOfWord_of_readWord {m : Memory} {a v : Word} (h : m.readWord a = some v) {k : Nat} (hk : k < 4) :
    byteOfWord v k = m.read (a.toNat + k) := by
  obtain ⟨-, rfl⟩ := (Memory.readWord_eq_some_iff m a v).mp h
  obtain ⟨h0, h1, h2, h3⟩ := byteOfWord_wordOfBytes (m.read a.toNat) (m.read (a.toNat + 1)) (m.read (a.toNat + 2))
    (m.read (a.toNat + 3))
  interval_cases k
  · exact h0
  · exact h1
  · exact h2
  · exact h3

theorem Memory.exists_readWord_iff (m : Memory) (a : Word) : (∃ v, m.readWord a = some v) ↔ a.toNat ≤ 996 := by
  simp [Memory.readWord_eq_some_iff]

theorem Memory.exists_writeWord_iff (m : Memory) (a v : Word) : (∃ m', m.writeWord a v = some m') ↔ a.toNat ≤ 996 := by
  simp [Memory.writeWord_eq_some_iff]

/-! ## LW and SW -/

/-- The window, byte by byte, is the bound on the address (20_memory.md R65). -/
theorem forall_byte_le_iff (n : Nat) : (∀ k < 4, n + k ≤ 999) ↔ n ≤ 996 :=
  ⟨fun h => by have := h 3 (by omega); omega, fun h k hk => by omega⟩

theorem exec_lw_completes_iff (rd rs1 : RegIdx) (imm : Imm12) (ignored : BitVec 3) (s : State) :
    (∃ t, exec (.lw rd rs1 imm ignored) s = .next t) ↔ (effectiveAddress s rs1 imm).toNat ≤ 996 := by
  simp [exec_lw_eq_next_iff, ← s.dmem.exists_readWord_iff]

theorem exec_sw_completes_iff (rs2 rs1 : RegIdx) (imm : Imm12) (ignored : BitVec 3) (s : State) :
    (∃ t, exec (.sw rs2 rs1 imm ignored) s = .next t) ↔ (effectiveAddress s rs1 imm).toNat ≤ 996 := by
  simp [exec_sw_eq_next_iff, ← s.dmem.exists_writeWord_iff _ (s.readReg rs2)]

theorem exec_lw_of_outOfWindow {s : State} {rs1 : RegIdx} {imm : Imm12} (h : 996 < (effectiveAddress s rs1 imm).toNat)
    (rd : RegIdx) (ignored : BitVec 3) :
    exec (.lw rd rs1 imm ignored) s =
      .fault (.loadOutOfWindow (effectiveAddress s rs1 imm) (encode (.lw rd rs1 imm ignored)) s.pc s.instrs) := by
  rw [exec, execLw_eq, if_neg (by omega)]

theorem exec_sw_of_outOfWindow {s : State} {rs1 : RegIdx} {imm : Imm12} (h : 996 < (effectiveAddress s rs1 imm).toNat)
    (rs2 : RegIdx) (ignored : BitVec 3) :
    exec (.sw rs2 rs1 imm ignored) s =
      .fault (.storeOutOfWindow (effectiveAddress s rs1 imm) (encode (.sw rs2 rs1 imm ignored)) s.pc s.instrs) := by
  rw [exec, execSw_eq, if_neg (by omega)]

/-- Settles O19: completion is the window of the address, and above it each access raises its own fault. -/
theorem dataAccessesFaultExactlyOutsideTheWindow : Obligations.DataAccessesFaultExactlyOutsideTheWindow := by
  intro r rs1 imm ignored s
  rw [forall_byte_le_iff]
  exact ⟨exec_lw_completes_iff .., exec_sw_completes_iff .., fun h =>
    ⟨⟨_, exec_lw_of_outOfWindow h r ignored, rfl⟩, ⟨_, exec_sw_of_outOfWindow h r ignored, rfl⟩⟩⟩

/-- An SW and then an LW, both in the window: the load reads the Data Store the store left, at the address it had before the
store, which writes no register. -/
theorem exec_sw_then_lw {s : State} {rs1 base : RegIdx} {imm offset : Imm12} (rs2 : RegIdx) {rd : RegIdx}
    (ignored ignored' : BitVec 3) (hst : (effectiveAddress s rs1 imm).toNat ≤ 996)
    (hld : (effectiveAddress s base offset).toNat ≤ 996) (hrd : rd ≠ 0#5) :
    ∃ t u, exec (.sw rs2 rs1 imm ignored) s = .next t ∧ exec (.lw rd base offset ignored') t = .next u ∧
      (s.dmem.putWord (effectiveAddress s rs1 imm).toNat (s.readReg rs2)).readWord (effectiveAddress s base offset) =
        some (u.readReg rd) := by
  obtain ⟨t, ht⟩ := (exec_sw_completes_iff rs2 rs1 imm ignored s).mpr hst
  obtain ⟨m, hm, rfl⟩ := (exec_sw_eq_next_iff ..).mp ht
  obtain ⟨-, rfl⟩ := (Memory.writeWord_eq_some_iff ..).mp hm
  obtain ⟨v, hv⟩ := (Memory.exists_readWord_iff _ _).mpr hld
  refine ⟨_, _, ht, (exec_lw_eq_next_iff ..).mpr ⟨v, hv, rfl⟩, ?_⟩
  rw [State.readReg_writeBack_self, if_neg hrd]
  exact hv

/-- Settles O20: the load reads the Word just put at its own address. -/
theorem aStoredWordLoadsBackExactly : Obligations.AStoredWordLoadsBackExactly := by
  intro rs2 rs1 imm ignored rd base offset ignored' s hwf hst heq hrd
  obtain ⟨t, u, ht, hu, hread⟩ := exec_sw_then_lw rs2 ignored ignored' hst (heq ▸ hst) hrd
  rw [heq, Memory.readWord_putWord hwf hst] at hread
  exact ⟨t, u, ht, hu, (Option.some.inj hread).symm⟩

/-- Settles O21: each byte of the loaded Word is a byte of the store after the SW. -/
theorem aLoadAfterAStoreReadsByteByByte : Obligations.ALoadAfterAStoreReadsByteByByte := by
  intro rs2 rs1 imm ignored rd base offset ignored' s hwf hst hld hrd
  obtain ⟨t, u, ht, hu, hread⟩ := exec_sw_then_lw rs2 ignored ignored' hst hld hrd
  refine ⟨t, u, ht, hu, fun k hk => ?_⟩
  rw [Memory.byteOfWord_of_readWord hread hk, Memory.read_putWord_cases hwf hst]

/-! ## The placed word -/

theorem State.withFetchWord_fetching (s : State) (nbits w : Nat) : (s.withFetchWord nbits w).Fetching := ⟨rfl, rfl⟩

/-- The pc of the host's probe can be fetched from. -/
theorem State.withFetchWord_pc_le (s : State) (nbits w : Nat) : (s.withFetchWord nbits w).pc.toNat ≤ 996 := by
  rw [State.withFetchWord_pc]
  split
  · exact (inWindow_iff s.pc).mp ‹_›
  · decide

theorem State.fetch_withFetchWord {s : State} (h : s.imem.wf = true) (nbits w : Nat) :
    (s.withFetchWord nbits w).fetch = some (BitVec.ofNat 32 (w % 2 ^ nbits)) :=
  Memory.readWord_putWord h (s.withFetchWord_pc_le nbits w) _

/-- Settles O40: the probe leaves an engine that fetches, and the fetch reads the word just put at the pc. -/
theorem thePlacedWordRunsNext : Obligations.ThePlacedWordRunsNext :=
  fun s nbits w _ hwf => step_of_fetch (s.withFetchWord_fetching nbits w) (State.fetch_withFetchWord hwf nbits w)

end Sys2Proof.Machine
end

section
/-! PROOFS. The text of an image: what it reads back as (20_memory.md R78), and the launch from two of them (R79,
70_reset_and_hazards.md R233). -/

namespace Sys2Proof.Machine

/-! ## A line -/

/-- The most significant bit leads the line. -/
theorem bitLine_succ {n : Nat} (v : BitVec (n + 1)) :
    bitLine (n + 1) v = (if v.msb then '1' else '0') :: bitLine n (v.setWidth n) := by
  have hshift (i : Nat) : i + (n + 1) - n = i + 1 := by omega
  simp [bitLine, List.range_succ_eq_map, BitVec.msb, hshift]

/-- One more bit doubles the number read so far. -/
theorem bitsValue_bit (b : Bool) (rest : List Char) (acc : Nat) :
    bitsValue ((if b then '1' else '0') :: rest) acc = bitsValue rest (2 * acc + b.toNat) := by
  cases b <;> rfl

/-- The line of a value spells that value, after whatever was read before it. -/
theorem bitsValue_bitLine {n : Nat} (v : BitVec n) (acc : Nat) :
    bitsValue (bitLine n v) acc = some (acc * 2 ^ n + v.toNat) := by
  induction n generalizing acc with
  | zero => simp [bitLine, bitsValue, BitVec.eq_nil v]
  | succ n ih =>
    have hv : v.toNat = v.msb.toNat * 2 ^ n + (v.setWidth n).toNat := by
      rw [← Nat.shiftLeft_eq, ← BitVec.toNat_cons', BitVec.cons_msb_setWidth]
    rw [bitLine_succ, bitsValue_bit, ih, hv]
    congr 1
    ring

@[simp] theorem length_byteLine (b : Byte) : (byteLine b).length = 8 := by simp [byteLine, bitLine]

@[simp] theorem parseByteLine_byteLine (b : Byte) : parseByteLine (byteLine b) = .ok b := by
  rw [parseByteLine, if_pos (length_byteLine b), byteLine, bitsValue_bitLine]
  simp

/-! ## An image -/

theorem parseLines_map_byteLine (bytes : List Byte) : parseLines (bytes.map byteLine) = .ok bytes := by
  induction bytes with
  | nil => rfl
  | cons b rest ih => simp [parseLines, ih]

theorem parseImage_map_byteLine {bytes : List Byte} (h : bytes.length ≤ memSize) :
    parseImage (bytes.map byteLine) = .ok bytes := by
  rw [parseImage, if_pos (by simpa using h), parseLines_map_byteLine]

/-- Settles O56: the snapshot fills the window, so its lines are an image. -/
theorem theDataSnapshotReadsBackAsAnImage : Obligations.TheDataSnapshotReadsBackAsAnImage :=
  fun s => parseImage_map_byteLine (Nat.le_of_eq s.length_dataSnapshot)

/-! ## The launch -/

/-- Two images that fit their stores build a core (20_memory.md R77). -/
theorem State.exists_construct_eq_ok {imemImage dmemImage : List Byte} (hi : imemImage.length ≤ memSize)
    (hd : dmemImage.length ≤ memSize) (policy : UnknownOpcodePolicy) (imemPad dmemPad : Nat → Byte) :
    ∃ s, State.construct policy imemImage imemPad dmemImage dmemPad = .ok s := by
  simp [State.construct, loadImage, hi, hd]

/-- Settles O44: a launch fails only where a source is not read as an image, since an image that is read fits its store. -/
theorem theLaunchFailsExactlyOnMalformedText : Obligations.TheLaunchFailsExactlyOnMalformedText := by
  intro policy imemLines dmemLines imemPad dmemPad
  rw [← parseImage_ok_iff, ← parseImage_ok_iff]
  simp only [launch, readSource_some]
  cases hi : parseImage imemLines with
  | error e => simp
  | ok imem =>
    cases hd : parseImage dmemLines with
    | error e => simp
    | ok dmem =>
      simpa using
        State.exists_construct_eq_ok (parseImage_length_le hi) (parseImage_length_le hd) policy imemPad dmemPad

end Sys2Proof.Machine
end

section
/-! PROOFS. The fields and immediates of a word (30_encoding.md R91 to R95, R98, R99). -/

namespace Sys2Proof

/-! ## A word from its fields, in the three ways a format cuts it -/

theorem append_fields_immI (w : Word) :
    fieldImmI w ++ fieldRs1 w ++ fieldIgnored w ++ fieldRd w ++ fieldOpcode w = w := by
  apply BitVec.eq_of_toNat_eq
  simp only [fieldImmI, fieldRs1, fieldIgnored, fieldRd, fieldOpcode, toNat_field, toNat_append_add]
  have := w.isLt
  omega

theorem append_fields (w : Word) :
    fieldFunct7 w ++ fieldRs2 w ++ fieldRs1 w ++ fieldIgnored w ++ fieldRd w ++ fieldOpcode w = w := by
  apply BitVec.eq_of_toNat_eq
  rw [toNat_eq_fields w]
  simp only [toNat_append_add]
  omega

theorem append_fields_upper (w : Word) : fieldUpper w ++ fieldOpcode w = w :=
  BitVec.extractLsb'_append_extractLsb' (w := 25) (len := 7)

/-! ## The two immediates share the fields of the R format -/

theorem fieldImmI_eq_append (w : Word) : fieldImmI w = fieldFunct7 w ++ fieldRs2 w :=
  (BitVec.extractLsb'_append_extractLsb'_eq_extractLsb' (len₂ := 7) (len₁ := 5) rfl).symm

theorem fieldImmS_eq_append (w : Word) : fieldImmS w = fieldFunct7 w ++ fieldRd w := rfl

theorem extractLsb'_fieldImmS_high (w : Word) : (fieldImmS w).extractLsb' 5 7 = fieldFunct7 w :=
  BitVec.extractLsb'_append_eq_left

theorem extractLsb'_fieldImmS_low (w : Word) : (fieldImmS w).extractLsb' 0 5 = fieldRd w :=
  BitVec.extractLsb'_append_eq_right

/-- Bit 31 of the word is the sign of both immediates. -/
theorem msb_fieldImmI (w : Word) : (fieldImmI w).msb = w.getLsbD 31 := by
  simp [fieldImmI, BitVec.msb_eq_getLsbD_last]

theorem msb_fieldImmS (w : Word) : (fieldImmS w).msb = w.getLsbD 31 := by
  refine (BitVec.msb_append (x := w.extractLsb' 25 7)).trans ?_
  simp [BitVec.msb_eq_getLsbD_last]

/-! ## Sign extension, bit by bit -/

theorem sext_eq_append (imm : Imm12) : sext imm = (if imm.msb then BitVec.allOnes 20 else 0#20) ++ imm :=
  BitVec.signExtend_eq_append_of_le (by omega)

/-- Below bit 12 the Word holds the immediate. -/
theorem extractLsb'_sext_of_le (imm : Imm12) {start len : Nat} (h : start + len ≤ 12) :
    (sext imm).extractLsb' start len = imm.extractLsb' start len := by
  rw [sext_eq_append, BitVec.extractLsb'_append_eq_of_add_le h]

/-- From bit 12 up the Word holds copies of the sign. -/
theorem extractLsb'_sext_high {imm : Imm12} {sign : Bool} (h : imm.msb = sign) :
    (sext imm).extractLsb' 12 20 = if sign then BitVec.allOnes 20 else 0#20 := by
  rw [sext_eq_append, BitVec.extractLsb'_append_eq_left, h]

theorem sext_toInt_bounds (imm : Imm12) : -2048 ≤ (sext imm).toInt ∧ (sext imm).toInt ≤ 2047 := by
  rw [sext_toInt]
  exact ⟨imm.le_toInt, imm.toInt_le⟩

/-! ## Bits a mask keeps -/

/-- A field reads the same in a word and in what a mask keeps of it, where the mask covers the field. -/
theorem extractLsb'_and_of_allOnes {m : Word} {start len : Nat} (hm : m.extractLsb' start len = BitVec.allOnes len)
    (w : Word) : (w &&& m).extractLsb' start len = w.extractLsb' start len := by
  rw [BitVec.extractLsb'_and, hm, BitVec.and_allOnes]

/-- Words that agree under a mask agree in every field the mask covers. -/
theorem extractLsb'_congr_of_and_eq {w w' m : Word} (h : w &&& m = w' &&& m) {start len : Nat}
    (hm : m.extractLsb' start len = BitVec.allOnes len) : w.extractLsb' start len = w'.extractLsb' start len := by
  rw [← extractLsb'_and_of_allOnes hm w, h, extractLsb'_and_of_allOnes hm w']

/-- Settles O4: each field is a quotient and a remainder of the word. -/
theorem fieldsStandAtTheirFixedPositions : Obligations.FieldsStandAtTheirFixedPositions := by
  intro w
  have hw := w.isLt
  refine ⟨?_, toNat_field w 7 5, toNat_field w 15 5, toNat_field w 20 5, ?_, ?_, ?_⟩
  · rw [fieldOpcode, toNat_field, pow_zero, Nat.div_one]
  · rw [fieldFunct7, toNat_field, Nat.mod_eq_of_lt (by omega)]
  · rw [fieldImmI, toNat_field, Nat.mod_eq_of_lt (by omega)]
  · rw [fieldImmS, toNat_append_add, toNat_field, toNat_field, Nat.mod_eq_of_lt (a := w.toNat / 2 ^ 25) (by omega)]

/-- Settles O7: an immediate is its field below bit 12 and copies of the field's sign, bit 31 of the word, above. -/
theorem immediatesAreSignExtendedFromBitEleven : Obligations.ImmediatesAreSignExtendedFromBitEleven := by
  intro w
  obtain ⟨hloI, hhiI⟩ := sext_toInt_bounds (fieldImmI w)
  obtain ⟨hloS, hhiS⟩ := sext_toInt_bounds (fieldImmS w)
  refine ⟨?_, fun h => extractLsb'_sext_high ((msb_fieldImmI w).trans h),
    fun h => extractLsb'_sext_high ((msb_fieldImmI w).trans h), sext_toInt _, hloI, hhiI, ?_, ?_,
    fun h => extractLsb'_sext_high ((msb_fieldImmS w).trans h),
    fun h => extractLsb'_sext_high ((msb_fieldImmS w).trans h), hloS, hhiS⟩
  · exact (extractLsb'_sext_of_le _ (by omega)).trans BitVec.extractLsb'_eq_self
  · exact (extractLsb'_sext_of_le _ (by omega)).trans (extractLsb'_fieldImmS_low w)
  · exact (extractLsb'_sext_of_le _ (by omega)).trans (extractLsb'_fieldImmS_high w)

end Sys2Proof
end

section
/-! PROOFS. The decoder and the encoder (30_encoding.md R92 to R97, R101, R102). -/

namespace Sys2Proof

/-! ## The decoder, case by case -/

/-- The decoder as the one chain of tests on opcode and funct7 that it is (30_encoding.md R101). -/
theorem decode_eq_ite (w : Word) :
    decode w =
      if fieldOpcode w = 0x03#7 then .lw (fieldRd w) (fieldRs1 w) (fieldImmI w) (fieldIgnored w)
      else if fieldOpcode w = 0x13#7 then .addi (fieldRd w) (fieldRs1 w) (fieldImmI w) (fieldIgnored w)
      else if fieldOpcode w = 0x23#7 then .sw (fieldRs2 w) (fieldRs1 w) (fieldImmS w) (fieldIgnored w)
      else if fieldOpcode w = 0x33#7 then
        (if fieldFunct7 w = funct7Sub then .sub (fieldRd w) (fieldRs1 w) (fieldRs2 w) (fieldIgnored w)
        else .add (fieldRd w) (fieldRs1 w) (fieldRs2 w) (fieldFunct7 w) (fieldIgnored w))
      else if fieldOpcode w = 0x7F#7 then .halt (fieldUpper w)
      else .undefined (fieldOpcode w) (fieldUpper w) := by
  unfold decode kindOf
  split_ifs <;> rfl

/-- Every Word is one of the seven rows of the opcode map, and its instruction holds the fields of that row. -/
theorem decode_cases (w : Word) :
    (fieldOpcode w = 0x03#7 ∧ decode w = .lw (fieldRd w) (fieldRs1 w) (fieldImmI w) (fieldIgnored w)) ∨
    (fieldOpcode w = 0x13#7 ∧ decode w = .addi (fieldRd w) (fieldRs1 w) (fieldImmI w) (fieldIgnored w)) ∨
    (fieldOpcode w = 0x23#7 ∧ decode w = .sw (fieldRs2 w) (fieldRs1 w) (fieldImmS w) (fieldIgnored w)) ∨
    (fieldOpcode w = 0x33#7 ∧ fieldFunct7 w = funct7Sub ∧
      decode w = .sub (fieldRd w) (fieldRs1 w) (fieldRs2 w) (fieldIgnored w)) ∨
    (fieldOpcode w = 0x33#7 ∧ fieldFunct7 w ≠ funct7Sub ∧
      decode w = .add (fieldRd w) (fieldRs1 w) (fieldRs2 w) (fieldFunct7 w) (fieldIgnored w)) ∨
    (fieldOpcode w = 0x7F#7 ∧ decode w = .halt (fieldUpper w)) ∨
    (fieldOpcode w ∉ definedOpcodes ∧ decode w = .undefined (fieldOpcode w) (fieldUpper w)) := by
  rw [decode_eq_ite]
  split_ifs with hlw haddi hsw hreg hsub hhalt
  · exact .inl ⟨hlw, rfl⟩
  · exact .inr (.inl ⟨haddi, rfl⟩)
  · exact .inr (.inr (.inl ⟨hsw, rfl⟩))
  · exact .inr (.inr (.inr (.inl ⟨hreg, hsub, rfl⟩)))
  · exact .inr (.inr (.inr (.inr (.inl ⟨hreg, hsub, rfl⟩))))
  · exact .inr (.inr (.inr (.inr (.inr (.inl ⟨hhalt, rfl⟩)))))
  · exact .inr (.inr (.inr (.inr (.inr (.inr ⟨by simp [definedOpcodes, *], rfl⟩)))))

theorem decode_eq_add {w : Word} (hop : fieldOpcode w = 0x33#7) (hf : fieldFunct7 w ≠ funct7Sub) :
    decode w = .add (fieldRd w) (fieldRs1 w) (fieldRs2 w) (fieldFunct7 w) (fieldIgnored w) := by
  simp [decode_eq_ite, hop, hf]

theorem decode_eq_undefined {w : Word} (hop : fieldOpcode w ∉ definedOpcodes) :
    decode w = .undefined (fieldOpcode w) (fieldUpper w) := by
  simp_all [definedOpcodes, decode_eq_ite]

/-! ## The decoder and the encoder undo each other -/

theorem decode_encode {i : Instr} (h : i.wf = true) : decode (encode i) = i := by
  cases i with
  | lw rd rs1 imm ignored =>
    obtain ⟨himm, hrs1, hig, hrd, hop⟩ := fields_append_immI imm rs1 ignored rd 0x03#7
    simp [decode_eq_ite, encode, himm, hrs1, hig, hrd, hop]
  | addi rd rs1 imm ignored =>
    obtain ⟨himm, hrs1, hig, hrd, hop⟩ := fields_append_immI imm rs1 ignored rd 0x13#7
    simp [decode_eq_ite, encode, himm, hrs1, hig, hrd, hop]
  | sw rs2 rs1 imm ignored =>
    obtain ⟨-, hrs2, hrs1, hig, -, hop, himm⟩ :=
      fields_append (imm.extractLsb' 5 7) rs2 rs1 ignored (imm.extractLsb' 0 5) 0x23#7
    have hparts : imm.extractLsb' 5 7 ++ imm.extractLsb' 0 5 = imm :=
      BitVec.extractLsb'_append_extractLsb' (w := 7) (len := 5)
    simp [decode_eq_ite, encode, hrs2, hrs1, hig, hop, himm, hparts]
  | sub rd rs1 rs2 ignored =>
    obtain ⟨hf, hrs2, hrs1, hig, hrd, hop, -⟩ := fields_append funct7Sub rs2 rs1 ignored rd 0x33#7
    simp [decode_eq_ite, encode, hf, hrs2, hrs1, hig, hrd, hop]
  | add rd rs1 rs2 funct7 ignored =>
    obtain ⟨hf, hrs2, hrs1, hig, hrd, hop, -⟩ := fields_append funct7 rs2 rs1 ignored rd 0x33#7
    have hne : funct7 ≠ funct7Sub := by simpa [Instr.wf] using h
    rw [encode, decode_eq_add hop (by rwa [hf]), hf, hrs2, hrs1, hig, hrd]
  | halt ignored =>
    obtain ⟨hup, hop⟩ := fields_append_upper ignored 0x7F#7
    simp [decode_eq_ite, encode, hup, hop]
  | undefined opcode ignored =>
    obtain ⟨hup, hop⟩ := fields_append_upper ignored opcode
    have hundef : opcode ∉ definedOpcodes := by simpa [Instr.wf] using h
    rw [encode, decode_eq_undefined (by rwa [hop]), hup, hop]

theorem decode_wf (w : Word) : (decode w).wf = true := by
  obtain ⟨-, hd⟩ | ⟨-, hd⟩ | ⟨-, hd⟩ | ⟨-, -, hd⟩ | ⟨-, hf, hd⟩ | ⟨-, hd⟩ | ⟨hop, hd⟩ := decode_cases w <;> rw [hd]
  · rfl
  · rfl
  · rfl
  · rfl
  · simp [Instr.wf, hf]
  · rfl
  · simp [Instr.wf, hop]

theorem encode_decode (w : Word) : encode (decode w) = w := by
  obtain ⟨hop, hd⟩ | ⟨hop, hd⟩ | ⟨hop, hd⟩ | ⟨hop, hf, hd⟩ | ⟨hop, -, hd⟩ | ⟨hop, hd⟩ | ⟨-, hd⟩ := decode_cases w <;>
    rw [hd, encode]
  · rw [← hop, append_fields_immI]
  · rw [← hop, append_fields_immI]
  · rw [← hop, extractLsb'_fieldImmS_high, extractLsb'_fieldImmS_low, append_fields]
  · rw [← hop, ← hf, append_fields]
  · rw [← hop, append_fields]
  · rw [← hop, append_fields_upper]
  · exact append_fields_upper w

/-- Settles O2: the fields of an encoded instruction are its operands, so the decoder takes the branch it was written from. -/
theorem decodeOfEncodeIsTheInstruction : Obligations.DecodeOfEncodeIsTheInstruction := fun _ h => decode_encode h

/-- Settles O3: the fields of the row a word decodes to make up the word. -/
theorem encodeOfDecodeIsTheWord : Obligations.EncodeOfDecodeIsTheWord := fun w => ⟨decode_wf w, encode_decode w⟩

/-- Settles O1: each sample word is run through the decoder. -/
theorem decodeReadsTheSpecsSampleWords : Obligations.DecodeReadsTheSpecsSampleWords := by
  unfold Obligations.DecodeReadsTheSpecsSampleWords
  decide

/-! ## The decoded record -/

/-- Settles O5: in each row the instruction was built from the fields the record extracts. -/
theorem decodeHoldsTheDecodedRecord : Obligations.DecodeHoldsTheDecodedRecord := by
  intro w
  have hk := decodeRecord_kind w
  obtain ⟨-, hd⟩ | ⟨-, hd⟩ | ⟨-, hd⟩ | ⟨-, -, hd⟩ | ⟨-, hf, hd⟩ | ⟨-, hd⟩ | ⟨hop, hd⟩ := decode_cases w <;>
    rw [hd] at hk ⊢
  · exact ⟨hk, rfl, rfl, rfl⟩
  · exact ⟨hk, rfl, rfl, rfl⟩
  · exact ⟨hk, rfl, rfl, rfl⟩
  · exact ⟨hk, rfl, rfl, rfl⟩
  · exact ⟨hk, rfl, rfl, rfl, hf⟩
  · exact hk
  · refine ⟨hk, ?_⟩
    simpa [definedOpcodes, ← BitVec.toNat_inj] using hop

/-! ## The opcode table -/

/-- A row that tests the opcode alone (30_encoding.md R101). -/
theorem and_mask_opcode_eq_iff (w pattern : Word) (opcode : BitVec 7) (hp : pattern = opcode.setWidth 32) :
    w &&& 0x0000007F#32 = pattern ↔ fieldOpcode w = opcode := by
  rw [and_mask_opcode, hp]
  refine ⟨fun h => ?_, fun h => by rw [h]⟩
  simpa [BitVec.setWidth_setWidth_of_le] using congrArg (BitVec.setWidth 7) h

/-- The SUB row tests funct7 and opcode. -/
theorem and_mask_sub_eq_iff (w : Word) :
    w &&& 0xFE00007F#32 = 0x40000033#32 ↔ fieldFunct7 w = funct7Sub ∧ fieldOpcode w = 0x33#7 := by
  constructor
  · intro h
    have hf := extractLsb'_and_of_allOnes (m := 0xFE00007F#32) (start := 25) (len := 7) rfl w
    have hop := extractLsb'_and_of_allOnes (m := 0xFE00007F#32) (start := 0) (len := 7) rfl w
    rw [h] at hf hop
    exact ⟨hf.symm, hop.symm⟩
  · rintro ⟨hf, hop⟩
    rw [and_mask_sub, hf, hop]
    rfl

/-- In matching order the tests of the table are the tests of the dispatch. -/
theorem decode_kind_eq_tableKind (w : Word) : (decode w).kind = tableKind w opcodeTable := by
  rw [decode_kind, kindOf]
  simp only [tableKind, opcodeTable, and_mask_sub_eq_iff, and_mask_opcode_eq_iff w 0x03#32 0x03#7 rfl,
    and_mask_opcode_eq_iff w 0x13#32 0x13#7 rfl, and_mask_opcode_eq_iff w 0x23#32 0x23#7 rfl,
    and_mask_opcode_eq_iff w 0x33#32 0x33#7 rfl, and_mask_opcode_eq_iff w 0x7F#32 0x7F#7 rfl]
  by_cases hf : fieldFunct7 w = funct7Sub <;> by_cases hop : fieldOpcode w = 0x33#7 <;> simp [hf, hop]

/-- A word that matches a row has the opcode of the row's pattern: every mask covers the opcode. -/
theorem fieldOpcode_eq_of_matches {w : Word} {r : OpcodeRow} (hr : r ∈ opcodeTable) (h : w &&& r.mask = r.pattern) :
    fieldOpcode w = fieldOpcode r.pattern := by
  have hmask : ∀ r ∈ opcodeTable, r.mask.extractLsb' 0 7 = BitVec.allOnes 7 := by decide
  rw [← h]
  exact (extractLsb'_and_of_allOnes (hmask r hr) w).symm

/-- Two rows of one opcode are of one kind, or are SUB and ADD (30_encoding.md R102). -/
theorem kind_of_same_opcode : ∀ r ∈ opcodeTable, ∀ r' ∈ opcodeTable, fieldOpcode r.pattern = fieldOpcode r'.pattern →
    r.kind = r'.kind ∨ ((r.kind = .sub ∨ r.kind = .add) ∧ (r'.kind = .sub ∨ r'.kind = .add)) := by
  decide

/-- Settles O6: two rows that match one word have its opcode in common. -/
theorem theTableInMatchingOrderDecidesTheKind : Obligations.TheTableInMatchingOrderDecidesTheKind :=
  ⟨decode_kind_eq_tableKind, fun _ r hr r' hr' h h' => kind_of_same_opcode r hr r' hr'
    ((fieldOpcode_eq_of_matches hr h).symm.trans (fieldOpcode_eq_of_matches hr' h'))⟩

/-! ## The bits the decoder ignores -/

/-- The instruction with every bit no meaning reads set to 0: `instr[14:12]`, the funct7 of ADD, the bits of HALT above its
opcode, and the whole word of an undefined opcode (30_encoding.md R97). -/
def Instr.withoutIgnored : Instr → Instr
  | .lw rd rs1 imm _ => .lw rd rs1 imm 0
  | .addi rd rs1 imm _ => .addi rd rs1 imm 0
  | .sw rs2 rs1 imm _ => .sw rs2 rs1 imm 0
  | .sub rd rs1 rs2 _ => .sub rd rs1 rs2 0
  | .add rd rs1 rs2 _ _ => .add rd rs1 rs2 0 0
  | .halt _ => .halt 0
  | .undefined _ _ => .undefined 0 0

/-- Bits 14:12 stand in `ignored` alone, or in a field that is ignored whole. -/
theorem withoutIgnored_decode_of_mask {w w' : Word} (h : w &&& 0xFFFF8FFF#32 = w' &&& 0xFFFF8FFF#32) :
    (decode w).withoutIgnored = (decode w').withoutIgnored := by
  have hop : fieldOpcode w = fieldOpcode w' := extractLsb'_congr_of_and_eq h rfl
  have hrd : fieldRd w = fieldRd w' := extractLsb'_congr_of_and_eq h rfl
  have hrs1 : fieldRs1 w = fieldRs1 w' := extractLsb'_congr_of_and_eq h rfl
  have hrs2 : fieldRs2 w = fieldRs2 w' := extractLsb'_congr_of_and_eq h rfl
  have hf : fieldFunct7 w = fieldFunct7 w' := extractLsb'_congr_of_and_eq h rfl
  simp only [decode_eq_ite, fieldImmI_eq_append, fieldImmS_eq_append, hop, hrd, hrs1, hrs2, hf]
  split_ifs <;> rfl

/-- Words of ADD that agree under the mask agree in all but funct7. -/
theorem withoutIgnored_decode_of_add {w w' : Word} (hop : fieldOpcode w = 0x33#7) (hf : fieldFunct7 w ≠ 0x20#7)
    (hf' : fieldFunct7 w' ≠ 0x20#7) (h : w &&& 0x01FFFFFF#32 = w' &&& 0x01FFFFFF#32) :
    (decode w).withoutIgnored = (decode w').withoutIgnored := by
  have hop' : fieldOpcode w = fieldOpcode w' := extractLsb'_congr_of_and_eq h rfl
  have hrd : fieldRd w = fieldRd w' := extractLsb'_congr_of_and_eq h rfl
  have hrs1 : fieldRs1 w = fieldRs1 w' := extractLsb'_congr_of_and_eq h rfl
  have hrs2 : fieldRs2 w = fieldRs2 w' := extractLsb'_congr_of_and_eq h rfl
  rw [decode_eq_add hop hf, decode_eq_add (hop' ▸ hop) hf', hrd, hrs1, hrs2]
  rfl

theorem withoutIgnored_of_halt {i : Instr} (h : i.kind = .halt) : i.withoutIgnored = .halt 0 := by
  cases i <;> simp_all [Instr.kind, Instr.withoutIgnored]

theorem withoutIgnored_of_undefined {i : Instr} (h : i.kind = .undefined) : i.withoutIgnored = .undefined 0 0 := by
  cases i <;> simp_all [Instr.kind, Instr.withoutIgnored]

end Sys2Proof
end

section
/-! PROOFS. No instruction is refused (30_encoding.md R96); and what a meaning does not depend on: the bits the decoder ignores
(R97), a result for x0 (R106), the unknown-opcode policy (R105). -/

namespace Sys2Proof.Machine

/-! ## No instruction is refused -/

theorem exec_ne_refused (i : Instr) (s : State) (r : Refusal) : exec i s ≠ .refused r := by
  intro h
  cases i with
  | lw rd rs1 imm ignored =>
    simp only [exec, execLw_eq] at h
    split at h <;> cases h
  | sw rs2 rs1 imm ignored =>
    simp only [exec, execSw_eq] at h
    split at h <;> cases h
  | undefined opcode ignored =>
    simp only [exec, execUndefined_eq] at h
    split at h <;> cases h
  | addi rd rs1 imm ignored => cases h
  | sub rd rs1 rs2 ignored => cases h
  | add rd rs1 rs2 funct7 ignored => cases h
  | halt ignored => cases h

theorem step_ne_refused (s : State) (r : Refusal) : step s ≠ .refused r := by
  intro h
  obtain ⟨-, hs⟩ | ⟨-, -, hs⟩ | ⟨-, -, -, hs⟩ | ⟨w, -, -, -, hs⟩ := step_cases s <;> rw [hs] at h
  · cases h
  · cases h
  · cases h
  · exact exec_ne_refused _ s r h

/-- Settles O31: `exec` has a meaning for each kind, and a step answers a state, a fault or what `exec` answers. -/
theorem nothingIsRefused : Obligations.NothingIsRefused := ⟨exec_ne_refused, step_ne_refused⟩

/-! ## The bits the decoder ignores -/

theorem exec_withoutIgnored_eq_next_iff (i : Instr) (s t : State) :
    exec i.withoutIgnored s = .next t ↔ exec i s = .next t := by
  cases i with
  | lw rd rs1 imm ignored => rw [Instr.withoutIgnored, exec_lw_eq_next_iff, exec_lw_eq_next_iff]
  | sw rs2 rs1 imm ignored => rw [Instr.withoutIgnored, exec_sw_eq_next_iff, exec_sw_eq_next_iff]
  | undefined opcode ignored => rw [Instr.withoutIgnored, exec_undefined_eq_next_iff, exec_undefined_eq_next_iff]
  | addi rd rs1 imm ignored => rfl
  | sub rd rs1 rs2 ignored => rfl
  | add rd rs1 rs2 funct7 ignored => rfl
  | halt ignored => rfl

theorem exec_next_congr {i i' : Instr} {s t : State} (h : i.withoutIgnored = i'.withoutIgnored)
    (hx : exec i s = .next t) : exec i' s = .next t := by
  rw [← exec_withoutIgnored_eq_next_iff, ← h, exec_withoutIgnored_eq_next_iff]
  exact hx

/-- Settles O8: in each clause the two decoded instructions differ in ignored bits alone. -/
theorem bitsTheDecoderIgnoresChangeNoNextState : Obligations.BitsTheDecoderIgnoresChangeNoNextState := by
  refine ⟨fun w w' s t hm => exec_next_congr (withoutIgnored_decode_of_mask hm),
    fun w w' s t hop hf hf' hm => exec_next_congr (withoutIgnored_decode_of_add hop hf hf' hm),
    fun w w' s t hop hop' => exec_next_congr ?_, fun w w' s t hk hk' => exec_next_congr ?_⟩
  · rw [withoutIgnored_of_halt ((decode_kind_eq_halt_iff w).mpr hop),
      withoutIgnored_of_halt ((decode_kind_eq_halt_iff w').mpr hop')]
  · rw [withoutIgnored_of_undefined hk, withoutIgnored_of_undefined hk']

/-! ## Register 0 as destination -/

@[simp] theorem State.writeBack_zero (s : State) (v : Word) : s.writeBack 0#5 v = s.retire := rfl

/-- Settles O18: a write-back to x0 only retires, and LW does so exactly where it completes. -/
theorem resultsForRegisterZeroAreDiscarded : Obligations.ResultsForRegisterZeroAreDiscarded := by
  intro rs1 rs2 imm funct7 ignored s
  refine ⟨congrArg Host.Outcome.next (s.writeBack_zero _), congrArg Host.Outcome.next (s.writeBack_zero _),
    congrArg Host.Outcome.next (s.writeBack_zero _), fun h => ?_, fun h => ⟨_, exec_lw_of_outOfWindow h 0 ignored⟩⟩
  obtain ⟨v, hv⟩ := (s.dmem.exists_readWord_iff _).mpr h
  exact (exec_lw_eq_next_iff ..).mpr ⟨v, hv, (s.writeBack_zero v).symm⟩

/-! ## The unknown-opcode policy -/

/-- The state under another value of the launch parameter. -/
def State.withPolicy (s : State) (policy : UnknownOpcodePolicy) : State := { s with unknownOpcodePolicy := policy }

/-- The outcome with `f` applied to its next state, if it has one. -/
def mapNext (f : State → State) : Host.Outcome State Fault Refusal → Host.Outcome State Fault Refusal
  | .next t => .next (f t)
  | .fault r => .fault r
  | .refused r => .refused r

theorem State.writeBack_withPolicy (s : State) (policy : UnknownOpcodePolicy) (rd : RegIdx) (v : Word) :
    (s.withPolicy policy).writeBack rd v = (s.writeBack rd v).withPolicy policy := by
  unfold State.writeBack State.writeReg
  split <;> rfl

/-- No meaning but that of an undefined opcode reads the policy (30_encoding.md R105). -/
theorem exec_withPolicy {i : Instr} (hk : i.kind ≠ .undefined) (s : State) (policy : UnknownOpcodePolicy) :
    exec i (s.withPolicy policy) = mapNext (·.withPolicy policy) (exec i s) := by
  cases i with
  | lw rd rs1 imm ignored =>
    have hd : (s.withPolicy policy).dmem = s.dmem := rfl
    have ha : effectiveAddress (s.withPolicy policy) rs1 imm = effectiveAddress s rs1 imm := rfl
    simp only [exec, execLw, hd, ha, State.writeBack_withPolicy]
    cases s.dmem.readWord (effectiveAddress s rs1 imm) <;> rfl
  | sw rs2 rs1 imm ignored =>
    have hd : (s.withPolicy policy).dmem = s.dmem := rfl
    have ha : effectiveAddress (s.withPolicy policy) rs1 imm = effectiveAddress s rs1 imm := rfl
    have hr : regOperand (s.withPolicy policy) rs2 = regOperand s rs2 := rfl
    simp only [exec, execSw, hd, ha, hr]
    cases s.dmem.writeWord (effectiveAddress s rs1 imm) (regOperand s rs2) <;> rfl
  | addi rd rs1 imm ignored => exact congrArg Host.Outcome.next (s.writeBack_withPolicy policy rd _)
  | sub rd rs1 rs2 ignored => exact congrArg Host.Outcome.next (s.writeBack_withPolicy policy rd _)
  | add rd rs1 rs2 funct7 ignored => exact congrArg Host.Outcome.next (s.writeBack_withPolicy policy rd _)
  | halt ignored => rfl
  | undefined opcode ignored => exact absurd rfl hk

theorem step_withPolicy {s : State} {w : Word} (hw : s.fetch = some w) (hk : (decode w).kind ≠ .undefined)
    (policy : UnknownOpcodePolicy) : step (s.withPolicy policy) = mapNext (·.withPolicy policy) (step s) := by
  have hm : (s.withPolicy policy).mode = s.mode := rfl
  have hp : (s.withPolicy policy).haltPending = s.haltPending := rfl
  have hf : (s.withPolicy policy).fetch = some w := hw
  unfold step
  rw [hm, hp, hf, hw]
  cases s.mode with
  | halted => rfl
  | running =>
    cases s.haltPending with
    | true => rfl
    | false => exact exec_withPolicy hk s policy

/-- Settles O53: `step_withPolicy`, with `mapNext` written out. -/
theorem thePolicyMattersForUndefinedOpcodesOnly : Obligations.ThePolicyMattersForUndefinedOpcodesOnly := by
  intro s policy w hw hk
  refine (step_withPolicy hw hk policy).trans ?_
  cases step s <;> rfl

end Sys2Proof.Machine
end

section
/-! PROOFS. The datapath driven by the control table and the ports (30_encoding.md R103, R104, 10_state.md R38). -/

namespace Sys2Proof.Machine

/-! ## The commit: what the ports drive -/

theorem commitData_of_write {p : Ports} {a v : Word} (hwe : p.dmWe = true) (ha : p.dmAddr = some a)
    (hv : p.dmWdata = some v) (m : Memory) : commitData p m = m.putWord a.toNat v := by
  rw [commitData, hwe, ha, hv]

theorem commitData_of_idle {p : Ports} (hwe : p.dmWe = false) (m : Memory) : commitData p m = m := by
  rw [commitData, hwe]

theorem commitRegister_of_write {p : Ports} {v : Word} (hwe : p.rfWe = true) (hv : p.rfWd = some v) (s : State) :
    commitRegister p s = s.writeReg p.rfWa v := by
  rw [commitRegister, hwe, hv]

theorem commitRegister_of_idle {p : Ports} (hwe : p.rfWe = false) (s : State) : commitRegister p s = s := by
  rw [commitRegister, hwe]

/-- Where the control table moves the pc on and sets no flag, the engine retires the cycle (40_datapath_cycle.md R129, R130). -/
theorem commitEngine_eq_retire {c : Control} (hpc : c.pcNext = .plus4) (hh : c.setHaltPending = false) (s : State) :
    commitEngine c s = s.retire := by
  simp [commitEngine, State.retire, hpc, hh]

theorem commitEngine_eq_setHaltPending {c : Control} (hpc : c.pcNext = .hold) (hh : c.setHaltPending = true) (s : State) :
    commitEngine c s = s.setHaltPending := by
  simp [commitEngine, State.setHaltPending, hpc, hh]

/-! ## The three ways a cycle of the datapath ends -/

section
variable {w : Word} {s : State} {c : Control} (hc : controlTable (decodeRecord w).kind s.unknownOpcodePolicy = c)
include hc

theorem datapath_of_pcNext_fault (hpc : c.pcNext = .fault) : datapath w s = raise (.unknownOpcode w) s := by
  subst hc
  exact if_pos hpc

theorem datapath_of_inWindow (hpc : c.pcNext ≠ .fault) (hoow : (ports (decodeRecord w) c s).dmOow = false) :
    datapath w s = .next (commitEngine c (commitRegister (ports (decodeRecord w) c s)
      { s with dmem := commitData (ports (decodeRecord w) c s) s.dmem })) := by
  subst hc
  simp only [datapath, if_neg hpc, hoow]

theorem datapath_of_outOfWindow (hpc : c.pcNext ≠ .fault) {a : Word} (hoow : (ports (decodeRecord w) c s).dmOow = true)
    (ha : (ports (decodeRecord w) c s).dmAddr = some a) :
    datapath w s = if c.dmWe then raise (.storeOutOfWindow a w) s else raise (.loadOutOfWindow a w) s := by
  subst hc
  simp only [datapath, if_neg hpc, hoow, ha]

end

/-! ## The rows of the control table -/

/-- ADDI, ADD and SUB write `alu_y` back. -/
theorem datapath_of_aluY {w : Word} {s : State} (b : AluB) (op : AluOp)
    (hc : controlTable (decodeRecord w).kind s.unknownOpcodePolicy =
      ⟨true, false, false, some b, op, some .aluY, false, .plus4⟩) :
    datapath w s = .next (s.writeBack (fieldRd w) (alu op (s.readReg (fieldRs1 w))
      (aluBValue (decodeRecord w) (s.readReg (fieldRs2 w)) b))) := by
  rw [datapath_of_inWindow hc (by simp) rfl, commitEngine_eq_retire rfl rfl, commitData_of_idle rfl,
    commitRegister_of_write rfl rfl]
  rfl

/-- LW reads the Data Store at `alu_y`, and writes `dm_rdata` back or faults on `dm_oow`. -/
theorem execLw_eq_datapath {w : Word} (hk : (decodeRecord w).kind = .lw) (ignored : BitVec 3)
    (he : encode (.lw (fieldRd w) (fieldRs1 w) (fieldImmI w) ignored) = w) (s : State) :
    execLw (fieldRd w) (fieldRs1 w) (fieldImmI w) ignored s = datapath w s := by
  have hc : controlTable (decodeRecord w).kind s.unknownOpcodePolicy = controlTable .lw .nop := by rw [hk]; rfl
  rw [execLw, he, Memory.readWord]
  cases hin : inWindow (effectiveAddress s (fieldRs1 w) (fieldImmI w)) with
  | false =>
    rw [datapath_of_outOfWindow hc (by decide) (congrArg not hin) rfl]
    rfl
  | true =>
    rw [datapath_of_inWindow hc (by decide) (congrArg not hin), commitEngine_eq_retire rfl rfl, commitData_of_idle rfl,
      commitRegister_of_write rfl (if_pos hin)]
    rfl

/-- SW writes `x[rs2]` to the Data Store at `alu_y`, or faults on `dm_oow`. -/
theorem execSw_eq_datapath {w : Word} (hk : (decodeRecord w).kind = .sw) (ignored : BitVec 3)
    (he : encode (.sw (fieldRs2 w) (fieldRs1 w) (fieldImmS w) ignored) = w) (s : State) :
    execSw (fieldRs2 w) (fieldRs1 w) (fieldImmS w) ignored s = datapath w s := by
  have hc : controlTable (decodeRecord w).kind s.unknownOpcodePolicy = controlTable .sw .nop := by rw [hk]; rfl
  rw [execSw, he, Memory.writeWord]
  cases hin : inWindow (effectiveAddress s (fieldRs1 w) (fieldImmS w)) with
  | false =>
    rw [datapath_of_outOfWindow hc (by decide) (congrArg not hin) rfl]
    rfl
  | true =>
    rw [datapath_of_inWindow hc (by decide) (congrArg not hin), commitEngine_eq_retire rfl rfl,
      commitData_of_write rfl rfl rfl, commitRegister_of_idle rfl]
    rfl

/-- HALT drives no port and sets its flag. -/
theorem execHalt_eq_datapath {w : Word} (hk : (decodeRecord w).kind = .halt) (ignored : BitVec 25) (s : State) :
    execHalt ignored s = datapath w s := by
  have hc : controlTable (decodeRecord w).kind s.unknownOpcodePolicy = controlTable .halt .nop := by rw [hk]; rfl
  rw [datapath_of_inWindow hc (by decide) rfl, commitEngine_eq_setHaltPending rfl rfl, commitData_of_idle rfl,
    commitRegister_of_idle rfl]
  rfl

/-- An undefined opcode drives no port; the policy chooses the next pc. -/
theorem execUndefined_eq_datapath {w : Word} (hk : (decodeRecord w).kind = .undefined) (opcode : BitVec 7)
    (ignored : BitVec 25) (he : encode (.undefined opcode ignored) = w) (s : State) :
    execUndefined opcode ignored s = datapath w s := by
  rw [execUndefined, he]
  cases hp : s.unknownOpcodePolicy with
  | nop =>
    have hc : controlTable (decodeRecord w).kind s.unknownOpcodePolicy = controlTable .undefined .nop := by rw [hk, hp]
    rw [datapath_of_inWindow hc (by decide) rfl, commitEngine_eq_retire rfl rfl, commitData_of_idle rfl,
      commitRegister_of_idle rfl]
  | fault => rw [datapath_of_pcNext_fault (by rw [hk, hp]) rfl]

/-- Settles O51: row by row of the control table. -/
theorem theMeaningsAreTheDatapathOfTheControlTable : Obligations.TheMeaningsAreTheDatapathOfTheControlTable := by
  intro w s
  have hk := decodeRecord_kind w
  have he := encode_decode w
  obtain ⟨-, hd⟩ | ⟨-, hd⟩ | ⟨-, hd⟩ | ⟨-, -, hd⟩ | ⟨-, -, hd⟩ | ⟨-, hd⟩ | ⟨-, hd⟩ := decode_cases w <;>
    rw [hd] at hk he ⊢
  · exact execLw_eq_datapath hk _ he s
  · rw [datapath_of_aluY .immI .add (by rw [hk]; rfl)]
    rfl
  · exact execSw_eq_datapath hk _ he s
  · rw [datapath_of_aluY .rs2 .sub (by rw [hk]; rfl)]
    rfl
  · rw [datapath_of_aluY .rs2 .add (by rw [hk]; rfl)]
    rfl
  · exact execHalt_eq_datapath hk (fieldUpper w) s
  · exact execUndefined_eq_datapath hk _ _ he s

/-! ## The ALU -/

/-- The kind is SUB exactly for opcode 0x33 with funct7 0x20 (30_encoding.md R101). -/
theorem decodeRecord_kind_eq_sub_iff (w : Word) :
    (decodeRecord w).kind = .sub ↔ fieldOpcode w = 0x33#7 ∧ fieldFunct7 w = 0x20#7 := by
  constructor
  · intro h
    obtain ⟨-, hd⟩ | ⟨-, hd⟩ | ⟨-, hd⟩ | ⟨hop, hf, -⟩ | ⟨-, -, hd⟩ | ⟨-, hd⟩ | ⟨-, hd⟩ := decode_cases w
    case inr.inr.inr.inl => exact ⟨hop, hf⟩
    all_goals rw [decodeRecord_kind, hd] at h; cases h
  · rintro ⟨hop, hf⟩
    simp [decodeRecord, kindOf, funct7Sub, hop, hf]

theorem ports_aluOp (d : Decoded) (c : Control) (s : State) : (ports d c s).aluOp = c.aluOp := rfl

/-- The ALU's result is read from the three ports that drive it. -/
theorem ports_aluY (d : Decoded) (c : Control) (s : State) :
    (ports d c s).aluY = aluPort (ports d c s).aluOp (ports d c s).aluA (ports d c s).aluB := rfl

theorem alu_add_toNat (a b : Word) : (alu .add a b).toNat = (a.toNat + b.toNat) % 2 ^ 32 := BitVec.toNat_add a b

/-- The difference modulo 2^32, with the remainder of the integers (44_reg_arith.md R173). -/
theorem alu_sub_toNat (a b : Word) : ((alu .sub a b).toNat : Int) = ((a.toNat : Int) - b.toNat) % 2 ^ 32 := by
  have ha := a.isLt
  have hb := b.isLt
  rw [alu, BitVec.toNat_sub]
  omega

/-- Settles O57: the select of the control table for the kind, and the ALU it selects. -/
theorem theAluSubtractsExactlyForSub : Obligations.TheAluSubtractsExactlyForSub := by
  refine ⟨fun w s => ?_, fun op => by cases op <;> simp, fun a b => ⟨alu_add_toNat a b, alu_sub_toNat a b⟩,
    fun d c s a b ha hb => ?_⟩
  · rw [ports_aluOp, controlTable_aluOp]
    simp only [decodeRecord_kind_eq_sub_iff]
  · rw [ports_aluY, ha, hb, aluPort_some]

end Sys2Proof.Machine
end

section
/-! PROOFS. The assembler's words (30_encoding.md R108 to R110). -/

namespace Sys2Proof.Machine

/-! ## The immediate -/

theorem asmImm_of_inRange {imm : Int} (hlo : -2048 ≤ imm) (hhi : imm ≤ 2047) : asmImm imm = some (BitVec.ofInt 12 imm) :=
  if_pos ⟨hlo, hhi⟩

theorem asmImm_of_outOfRange {imm : Int} (h : imm < -2048 ∨ 2047 < imm) : asmImm imm = none :=
  if_neg (by omega)

/-- An immediate in range is sign-extended to the number it was written as (30_encoding.md R108). -/
theorem sext_ofInt_toInt {imm : Int} (hlo : -2048 ≤ imm) (hhi : imm ≤ 2047) : (sext (BitVec.ofInt 12 imm)).toInt = imm := by
  rw [sext_toInt]
  exact BitVec.toInt_ofInt_eq_self (by omega) hlo (by omega)

/-! ## The words -/

/-- No line stands for an ADD with the funct7 of SUB, or for an undefined opcode. -/
theorem Asm.instr_wf {a : Asm} {i : Instr} (h : a.instr = some i) : i.wf = true := by
  cases a with
  | lw rd imm rs1 =>
    obtain ⟨i', -, rfl⟩ := Option.map_eq_some_iff.mp h
    rfl
  | addi rd rs1 imm =>
    obtain ⟨i', -, rfl⟩ := Option.map_eq_some_iff.mp h
    rfl
  | sw rs2 imm rs1 =>
    obtain ⟨i', -, rfl⟩ := Option.map_eq_some_iff.mp h
    rfl
  | li rd imm =>
    obtain ⟨i', -, rfl⟩ := Option.map_eq_some_iff.mp h
    rfl
  | add rd rs1 rs2 => cases h; rfl
  | sub rd rs1 rs2 => cases h; rfl
  | halt => cases h; rfl
  | nop => cases h; rfl
  | mv rd rs1 => cases h; rfl

theorem Asm.word_of_instr {a : Asm} {i : Instr} (h : a.instr = some i) : a.word = some (encode i) := by
  rw [Asm.word, h, Option.map_some]

/-- Settles O54: an immediate in range leaves the word of the format, and one out of range leaves none. -/
theorem assembledWordsAreCanonicalAndDecode : Obligations.AssembledWordsAreCanonicalAndDecode := by
  refine ⟨fun a i h => ⟨Asm.instr_wf h, Asm.word_of_instr h, decode_encode (Asm.instr_wf h)⟩,
    fun rd rs1 rs2 imm hlo hhi => ?_, fun rd rs1 rs2 imm h => ?_⟩
  · simp [Asm.word, Asm.instr, asmImm_of_inRange hlo hhi, encode, funct7Sub]
  · simp [Asm.word, Asm.instr, asmImm_of_outOfRange h]

/-! ## The pseudo-instructions -/

/-- What ADDI leaves in a destination that is not x0 (42_imm_arith.md R151). -/
theorem exec_addi_readReg {rd : RegIdx} (hrd : rd ≠ 0#5) (rs1 : RegIdx) (imm : Imm12) (ignored : BitVec 3) (s : State) :
    ∃ t, exec (.addi rd rs1 imm ignored) s = .next t ∧ t.readReg rd = s.readReg rs1 + sext imm := by
  refine ⟨_, rfl, ?_⟩
  rw [State.readReg_writeBack_self, if_neg hrd]
  rfl

/-- Settles O55: each is the ADDI with x0 or 0 in one place. -/
theorem pseudoInstructionsDoWhatTheyName : Obligations.PseudoInstructionsDoWhatTheyName := by
  intro rd rs1 imm s hrd hlo hhi
  refine ⟨⟨_, rfl, rfl⟩, ?_, ?_⟩
  · obtain ⟨t, ht, hr⟩ := exec_addi_readReg hrd rs1 0 0 s
    exact ⟨_, t, rfl, ht, hr.trans (BitVec.add_zero _)⟩
  · obtain ⟨t, ht, hr⟩ := exec_addi_readReg hrd 0#5 (BitVec.ofInt 12 imm) 0#3 s
    refine ⟨.addi rd 0#5 (BitVec.ofInt 12 imm) 0#3, t, by simp [Asm.instr, asmImm_of_inRange hlo hhi], ht, ?_⟩
    rw [hr, State.readReg_zero, zero_add, sext_ofInt_toInt hlo hhi]

end Sys2Proof.Machine
end

section
/-! PROOFS. What one cycle does (40_datapath_cycle.md R120 to R122, R128 to R130): the fetch, the drain cycle, the idle step, the pc
and the two counters. -/

namespace Sys2Proof.Machine

/-! ## The cycle the engine takes -/

theorem not_fetching_of_halted {s : State} (hm : s.mode = .halted) : ¬ s.Fetching :=
  fun hs => by simpa [hm] using hs.running

theorem not_fetching_of_haltPending {s : State} (hp : s.haltPending = true) : ¬ s.Fetching :=
  fun hs => by simpa [hp] using hs.noHaltPending

/-- A step while HALTED changes nothing (40_datapath_cycle.md R128). -/
theorem step_of_halted {s : State} (hm : s.mode = .halted) : step s = .next s := by simp [step, hm]

/-- A pending HALT drains (40_datapath_cycle.md R121). -/
theorem step_of_haltPending {s : State} (hm : s.mode = .running) (hp : s.haltPending = true) : step s = .next s.drain := by
  simp [step, hm, hp]

theorem step_of_fetch_none {s : State} (hs : s.Fetching) (hw : s.fetch = none) :
    step s = .fault (.fetchOutOfWindow s.pc s.instrs) := by
  obtain ⟨hm, hp⟩ := hs
  simp [step, hm, hp, hw, raise]

/-- In the window a fetch cycle is the dispatch of the big-endian Word at the pc (40_datapath_cycle.md R122 to R124). -/
theorem step_of_pc_le {s : State} (hs : s.Fetching) (hpc : s.pc.toNat ≤ 996) :
    step s = exec (decode (wordOfBytes (s.imem.read s.pc.toNat) (s.imem.read (s.pc.toNat + 1))
      (s.imem.read (s.pc.toNat + 2)) (s.imem.read (s.pc.toNat + 3)))) s :=
  step_of_fetch hs ((fetch_eq_some_iff s _).mpr ⟨hpc, rfl⟩)

/-- Settles O23: the four bytes are the fetched word's, and its dispatch is the step. -/
theorem aStepRunsTheDecodedInstruction : Obligations.AStepRunsTheDecodedInstruction := by
  intro s i hs hpc hi
  cases hi
  exact step_of_pc_le hs hpc

/-- Settles O24: the drain cycle is `State.drain`, and shows the state after it. -/
theorem theDrainCycleHaltsTheEngine : Obligations.TheDrainCycleHaltsTheEngine := by
  intro s hm hp
  have hstep := step_of_haltPending hm hp
  refine ⟨hstep, ?_, ?_⟩ <;> rw [cycle_of_step_next hm hstep]
  · simp [outputsOf, traceOf, hp]
  · rfl

/-- Settles O26: the fetch is in the window exactly up to 996. -/
theorem aFetchFaultsExactlyAboveTheLastWord : Obligations.AFetchFaultsExactlyAboveTheLastWord :=
  fun s hs => ⟨fun hpc => ⟨_, step_of_fetch_none hs ((fetch_eq_none_iff s).mpr hpc), rfl⟩, step_of_pc_le hs⟩

/-! ## The pc and the counters -/

/-- The ways a cycle completes, as the engine sees them: idle, drain, a retired instruction, or a HALT. -/
theorem step_next_engine_cases {s t : State} (h : step s = .next t) :
    (s.mode = .halted ∧ t = s) ∨
    (s.mode = .running ∧ s.haltPending = true ∧ t = s.drain) ∨
    (∃ w, s.Fetching ∧ s.fetch = some w ∧ fieldOpcode w ≠ 0x7F#7 ∧ Retired s t) ∨
    (∃ w, s.Fetching ∧ s.fetch = some w ∧ fieldOpcode w = 0x7F#7 ∧ t = s.setHaltPending) := by
  obtain hidle | hdrain | ⟨w, hs, hw, hx⟩ := step_next_cases h
  · exact .inl hidle
  · exact .inr (.inl hdrain)
  · have hhalt := decode_kind_eq_halt_iff w
    obtain ⟨hk, hr⟩ | ⟨hk, ht⟩ := exec_next_retired_or_halt hx
    · exact .inr (.inr (.inl ⟨w, hs, hw, mt hhalt.mpr hk, hr⟩))
    · exact .inr (.inr (.inr ⟨w, hs, hw, hhalt.mp hk, ht⟩))

/-- Settles O32: only a retired instruction moves the pc. -/
theorem thePcMovesByFourExceptOnHaltAndDrain : Obligations.ThePcMovesByFourExceptOnHaltAndDrain := by
  intro s t h
  obtain ⟨hm, rfl⟩ | ⟨-, hp, rfl⟩ | ⟨w, hs, hw, hop, hr⟩ | ⟨w, -, hw, hop, rfl⟩ := step_next_engine_cases h
  · exact .inr ⟨.inl (not_fetching_of_halted hm), rfl⟩
  · exact .inr ⟨.inl (not_fetching_of_haltPending hp), rfl⟩
  · exact .inl ⟨hs, ⟨w, hw, hop⟩, hr.pc⟩
  · exact .inr ⟨.inr ⟨w, hw, hop⟩, rfl⟩

/-- Every completing step that begins RUNNING counts one cycle, and no other does (40_datapath_cycle.md R130). -/
theorem step_next_cycles {s t : State} (h : step s = .next t) :
    t.cycles = if s.mode = .running then s.cycles + 1 else s.cycles := by
  obtain ⟨hm, rfl⟩ | ⟨hm, -, rfl⟩ | ⟨w, hs, -, -, hr⟩ | ⟨w, hs, -, -, rfl⟩ := step_next_engine_cases h
  · simp [hm]
  · simp [hm]
  · rw [if_pos hs.running, hr.cycles]
  · rw [if_pos hs.running, State.setHaltPending_cycles]

/-- A step that runs no fetched word counts no instruction (40_datapath_cycle.md R130). -/
theorem step_next_instrs_of_not_fetching {s t : State} (h : step s = .next t) (hs : ¬ s.Fetching) :
    t.instrs = s.instrs := by
  obtain ⟨-, rfl⟩ | ⟨-, -, rfl⟩ | ⟨w, hf, -⟩ := step_next_cases h
  · rfl
  · rfl
  · exact absurd hf hs

/-- A fetched word counts as an instruction unless it is HALT (40_datapath_cycle.md R130). -/
theorem step_next_instrs_of_fetch {s t : State} (h : step s = .next t) (hs : s.Fetching) {w : Word}
    (hw : s.fetch = some w) : t.instrs = if fieldOpcode w = 0x7F#7 then s.instrs else s.instrs + 1 := by
  rw [step_of_fetch hs hw] at h
  have hhalt := decode_kind_eq_halt_iff w
  obtain ⟨hk, hr⟩ | ⟨hk, rfl⟩ := exec_next_retired_or_halt h
  · rw [if_neg (mt hhalt.mpr hk), hr.instrs]
  · rw [if_pos (hhalt.mp hk), State.setHaltPending_instrs]

/-- Settles O33: the counters of an idle step, a drain cycle and a fetch cycle. -/
theorem theCountersCountCyclesAndRealInstructions : Obligations.TheCountersCountCyclesAndRealInstructions := by
  intro s t h
  have hcycles := step_next_cycles h
  have hinstrs := step_next_instrs_of_not_fetching h
  refine ⟨fun hm => ⟨?_, ?_⟩, fun hm => ?_, fun _ hp => ?_, fun w hs hw => step_next_instrs_of_fetch h hs hw⟩
  · simpa [hm] using hcycles
  · exact hinstrs (not_fetching_of_halted hm)
  · simpa [hm] using hcycles
  · exact hinstrs (not_fetching_of_haltPending hp)

end Sys2Proof.Machine
end

section
/-! PROOFS. Runs (40_datapath_cycle.md R131, R133, R135 to R138): idle and draining runs, how a run ends, and what it counts. -/

namespace Sys2Proof.Machine

/-! ## A run one step on -/

theorem stepN_succ_of_step {s t : State} (h : step s = .next t) (n : Nat) : stepN (n + 1) s = stepN n t := by
  simp [stepN, h]

theorem exists_step_of_stepN_succ {s u : State} {n : Nat} (h : stepN (n + 1) s = .next u) :
    ∃ t, step s = .next t ∧ stepN n t = .next u := by
  unfold stepN at h
  cases hst : step s with
  | next t => rw [hst] at h; exact ⟨t, rfl, h⟩
  | fault f => rw [hst] at h; cases h
  | refused r => rw [hst] at h; cases h

theorem drive_succ_of_step {s t : State} (h : step s = .next t) (fuel : Nat) :
    drive (fuel + 1) s = if t.mode = .halted then .final t else drive fuel t := by
  simp [drive, h]

/-! ## While HALTED, and once a HALT is pending -/

theorem stepN_of_halted {s : State} (hm : s.mode = .halted) (n : Nat) : stepN n s = .next s := by
  induction n with
  | zero => rfl
  | succ n ih => rw [stepN_succ_of_step (step_of_halted hm), ih]

theorem driveTrace_of_halted {s : State} (hm : s.mode = .halted) (fuel : Nat) : driveTrace fuel s = [] := by
  cases fuel with
  | zero => rfl
  | succ fuel => simp [driveTrace, step_of_halted hm, hm]

/-- Settles O25: a step while HALTED answers the state it began with, so every run of them does. -/
theorem stepsWhileHaltedChangeNothing : Obligations.StepsWhileHaltedChangeNothing := by
  intro n s hm
  have hcycle : cycle s = (s, outputsOf s none none s.diagUnknownOpcode) := by simp [cycle, step_of_halted hm, hm]
  refine ⟨stepN_of_halted hm n, ?_, ?_, ?_, driveTrace_of_halted hm n⟩ <;> rw [hcycle]
  · rfl
  · exact s.isHalted_iff.mpr hm

/-- Settles O39: a pending HALT leaves only the drain cycle and then idle steps. -/
theorem nothingIsWrittenOnceAHaltIsPending : Obligations.NothingIsWrittenOnceAHaltIsPending := by
  intro n s hp
  cases hm : s.mode with
  | halted => exact ⟨s, stepN_of_halted hm n, fun _ => rfl, rfl, rfl, rfl⟩
  | running =>
    cases n with
    | zero => exact ⟨s, rfl, fun _ => rfl, rfl, rfl, rfl⟩
    | succ n =>
      refine ⟨s.drain, ?_, s.readReg_drain, rfl, rfl, rfl⟩
      rw [stepN_succ_of_step (step_of_haltPending hm hp), stepN_of_halted s.drain_mode]

/-! ## Every run ends -/

/-- An engine that is not HALTED has a cycle left: 251 cycles are 249 instructions, a HALT and its drain cycle. -/
theorem State.Inv.cycles_le_of_running {s : State} (hi : s.Inv) (hm : s.mode = .running) : s.cycles ≤ 250 := by
  rw [hi.cyclesCountInstrs]
  cases hp : s.haltPending with
  | true =>
    have hn := hi.haltInWindow hp
    rw [s.haltCycles_of_pending hm hp]
    omega
  | false =>
    rw [s.haltCycles_of_fetching ⟨hm, hp⟩]
    exact hi.instrsInWindow

/-- Each step of a run counts a cycle until the run ends, and the invariant bounds the cycles. -/
theorem State.Inv.drive_ne_unfinished {fuel : Nat} {s : State} (hi : s.Inv) (hm : s.mode = .running)
    (hfuel : 251 ≤ s.cycles + fuel) (u : State) : drive fuel s ≠ .unfinished u := by
  induction fuel generalizing s with
  | zero =>
    have := hi.cycles_le_of_running hm
    omega
  | succ fuel ih =>
    cases hst : step s with
    | next t =>
      rw [drive_succ_of_step hst]
      split_ifs with ht
      · simp
      · have hc := step_next_cycles hst
        rw [if_pos hm] at hc
        have htm : t.mode = .running := by
          cases hmode : t.mode with
          | running => rfl
          | halted => exact absurd hmode ht
        exact ih (everyStepKeepsTheMachineInvariant s t hi hst) htm (by omega)
    | fault f => simp [drive, hst]
    | refused r => exact absurd hst (step_ne_refused s r)

theorem State.Inv.drive_251_ne_unfinished {s : State} (hi : s.Inv) (u : State) : drive 251 s ≠ .unfinished u := by
  cases hm : s.mode with
  | running => exact hi.drive_ne_unfinished hm (by omega) u
  | halted => simp [drive_succ_of_step (step_of_halted hm), hm]

/-- Settles O46: the cycles of a run are bounded, and a constructed core meets the invariant. -/
theorem everyRunEndsWithin251Steps : Obligations.EveryRunEndsWithin251Steps :=
  ⟨fun _ u hi => hi.drive_251_ne_unfinished u,
    fun _ _ _ _ _ _ u hs => (State.Inv.of_construct hs).drive_251_ne_unfinished u⟩

/-! ## The counting law -/

/-- Only a retired instruction leaves an engine that fetches: HALTED and a pending HALT are permanent. -/
theorem fetching_and_retired_of_step {s t : State} (h : step s = .next t) (ht : t.Fetching) : s.Fetching ∧ Retired s t := by
  obtain ⟨hm, rfl⟩ | ⟨-, -, rfl⟩ | ⟨w, hs, -, -, hr⟩ | ⟨w, -, -, -, rfl⟩ := step_next_engine_cases h
  · exact absurd ht (not_fetching_of_halted hm)
  · exact absurd ht (not_fetching_of_halted s.drain_mode)
  · exact ⟨hs, hr⟩
  · exact absurd ht (not_fetching_of_haltPending s.setHaltPending_haltPending)

/-- A run that ends in an engine that fetches retired an instruction at each step (40_datapath_cycle.md R131). -/
theorem stepN_next_fetching {n : Nat} {s u : State} (h : stepN n s = .next u) (hu : u.Fetching) :
    s.Fetching ∧ u.instrs = s.instrs + n ∧ u.cycles = s.cycles + n := by
  induction n generalizing s with
  | zero => cases h; exact ⟨hu, rfl, rfl⟩
  | succ n ih =>
    obtain ⟨t, hst, hrun⟩ := exists_step_of_stepN_succ h
    obtain ⟨ht, hinstrs, hcycles⟩ := ih hrun
    obtain ⟨hs, hr⟩ := fetching_and_retired_of_step hst ht
    have := hr.instrs
    have := hr.cycles
    exact ⟨hs, by omega, by omega⟩

/-- The driver passes through every state of a run that is not HALTED. -/
theorem drive_add_of_stepN {n : Nat} {s u : State} (h : stepN n s = .next u) (hu : u.mode = .running) (fuel : Nat) :
    drive (n + fuel) s = drive fuel u := by
  induction n generalizing s with
  | zero => cases h; rw [Nat.zero_add]
  | succ n ih =>
    obtain ⟨t, hst, hrun⟩ := exists_step_of_stepN_succ h
    have ht : t.mode ≠ .halted := fun ht => by
      simp [stepN_induction step_next_mode_of_halted n ht hrun] at hu
    rw [Nat.add_right_comm, drive_succ_of_step hst, if_neg ht, ih hrun]

/-- A fetched HALT sets its flag and nothing else of the engine but the cycle count (45_halt_and_undefined.md R180). -/
theorem step_of_fetch_halt {s : State} (hs : s.Fetching) {w : Word} (hw : s.fetch = some w)
    (hop : fieldOpcode w = 0x7F#7) : step s = .next s.setHaltPending := by
  have hk := (decode_kind_eq_halt_iff w).mpr hop
  rw [step_of_fetch hs hw]
  cases hd : decode w <;> rw [hd] at hk <;> cases hk
  rfl

/-- A fetched HALT ends a run in two cycles, its own and the drain cycle (40_datapath_cycle.md R131). -/
theorem drive_two_of_fetch_halt {s : State} (hs : s.Fetching) {w : Word} (hw : s.fetch = some w)
    (hop : fieldOpcode w = 0x7F#7) : drive 2 s = .final s.setHaltPending.drain := by
  have hm : s.setHaltPending.mode = .running := hs.running
  rw [drive_succ_of_step (step_of_fetch_halt hs hw hop), if_neg (by rw [hm]; decide),
    drive_succ_of_step (step_of_haltPending hm rfl), if_pos (State.drain_mode _)]

/-- A constructed core begins with both counters 0 (92_eei_decisions.md D9). -/
theorem State.counters_of_construct {policy : UnknownOpcodePolicy} {imemImage dmemImage : List Byte}
    {imemPad dmemPad : Nat → Byte} {s : State}
    (h : State.construct policy imemImage imemPad dmemImage dmemPad = .ok s) : s.instrs = 0 ∧ s.cycles = 0 := by
  unfold State.construct at h
  split at h <;> cases h
  exact ⟨rfl, rfl⟩

/-- The counting law, with the state a run that reaches a HALT after `n` instructions ends in. -/
theorem drive_of_stepN_halt {n : Nat} {s u : State} {w : Word} (h : stepN n s = .next u) (hu : u.Fetching)
    (hw : u.fetch = some w) (hop : fieldOpcode w = 0x7F#7) :
    drive (n + 2) s = .final u.setHaltPending.drain ∧ u.setHaltPending.drain.instrs = s.instrs + n ∧
      u.setHaltPending.drain.cycles = s.cycles + (n + 2) := by
  obtain ⟨-, hinstrs, hcycles⟩ := stepN_next_fetching h hu
  refine ⟨?_, hinstrs, ?_⟩
  · rw [drive_add_of_stepN h hu.running, drive_two_of_fetch_halt hu hw hop]
  · rw [State.drain_cycles, State.setHaltPending_cycles, hcycles]
    omega

/-- Settles O47: the run to the HALT retires one instruction at each step, and the HALT takes the last two. -/
theorem nInstructionsAndAHaltTakeNPlusTwoCycles : Obligations.NInstructionsAndAHaltTakeNPlusTwoCycles := by
  refine ⟨fun n s u w h hu hw hop => ?_, fun policy imemImage dmemImage imemPad dmemPad n s u w hs h hu hw hop => ?_⟩
  · obtain ⟨hd, hinstrs, hcycles⟩ := drive_of_stepN_halt h hu hw hop
    exact ⟨_, hd, hinstrs, hcycles, rfl, fun _ => rfl, rfl⟩
  · obtain ⟨hd, hinstrs, hcycles⟩ := drive_of_stepN_halt h hu hw hop
    obtain ⟨hi0, hc0⟩ := State.counters_of_construct hs
    exact ⟨_, hd, by omega, by omega⟩

/-! ## The summary and the trace -/

/-- A final run ended in a HALTED state that its steps reach (40_datapath_cycle.md R135). -/
theorem drive_eq_final {fuel : Nat} {s v : State} (h : drive fuel s = .final v) :
    v.mode = .halted ∧ ∃ n, stepN n s = .next v := by
  induction fuel generalizing s with
  | zero => cases h
  | succ fuel ih =>
    cases hst : step s with
    | next t =>
      rw [drive_succ_of_step hst] at h
      split_ifs at h with ht
      · cases h
        exact ⟨ht, 1, by rw [stepN_succ_of_step hst, stepN]⟩
      · obtain ⟨hv, n, hn⟩ := ih h
        exact ⟨hv, n + 1, by rw [stepN_succ_of_step hst, hn]⟩
    | fault f => simp [drive, hst] at h
    | refused r => exact absurd hst (step_ne_refused s r)

theorem State.Inv.cycles_of_halted {s : State} (hi : s.Inv) (hm : s.mode = .halted) : s.cycles = s.instrs + 2 := by
  rw [hi.cyclesCountInstrs]
  simp [State.haltCycles, hi.haltedWasPending hm, hm]

/-- Settles O48: a final state of a constructed core is HALTED and meets the invariant, which relates its counters. -/
theorem theSummaryOfAFinalRun : Obligations.TheSummaryOfAFinalRun := by
  intro policy imemImage dmemImage imemPad dmemPad k s v hs hk
  obtain ⟨hv, n, hn⟩ := drive_eq_final hk
  rw [summary, ((State.Inv.of_construct hs).stepN_next hn).cycles_of_halted hv]

/-- A completing step that begins RUNNING emits its record first; the records after it are those of the state it leaves, none
once HALTED. -/
theorem driveTrace_succ_of_step {s t : State} (hm : s.mode = .running) (h : step s = .next t) (fuel : Nat) :
    driveTrace (fuel + 1) s = traceOf s.cycles t :: driveTrace fuel t := by
  have hs : ¬ s.isHalted = true := by simp [hm]
  simp only [driveTrace, h, if_neg hs]
  split_ifs with ht
  · rw [driveTrace_of_halted (t.isHalted_iff.mp ht)]
  · rfl

/-- Settles O50: each record is labelled with the cycles counted before its step, and each such step counts one. -/
theorem traceRecordsAreLabelledConsecutively : Obligations.TraceRecordsAreLabelledConsecutively := by
  intro fuel
  induction fuel with
  | zero => simp [driveTrace]
  | succ fuel ih =>
    intro s i record h
    cases hm : s.mode with
    | halted => simp [driveTrace_of_halted hm] at h
    | running =>
      cases hst : step s with
      | next t =>
        rw [driveTrace_succ_of_step hm hst] at h
        cases i with
        | zero => cases h; rfl
        | succ i =>
          have hlabel := ih t i record h
          have hcycles := step_next_cycles hst
          rw [if_pos hm] at hcycles
          omega
      | fault f => simp [driveTrace, hst] at h
      | refused r => exact absurd hst (step_ne_refused s r)

end Sys2Proof.Machine
end

section
/-! PROOFS. LW in the window: the Word it loads and its frame (41_load.md R141). -/

namespace Sys2Proof.Machine

/-- LW in the window writes back the Word composed of the four bytes at its effective address. -/
theorem exec_lw_of_inWindow {s : State} {rs1 : RegIdx} {imm : Imm12} (h : (effectiveAddress s rs1 imm).toNat ≤ 996)
    (rd : RegIdx) (ignored : BitVec 3) :
    exec (.lw rd rs1 imm ignored) s =
      .next (s.writeBack rd (wordOfBytes (s.dmem.read (effectiveAddress s rs1 imm).toNat)
        (s.dmem.read ((effectiveAddress s rs1 imm).toNat + 1)) (s.dmem.read ((effectiveAddress s rs1 imm).toNat + 2))
        (s.dmem.read ((effectiveAddress s rs1 imm).toNat + 3)))) := by
  rw [exec, execLw_eq, if_pos h]

/-- Settles O10: the completion is a write-back of the loaded Word, whose destination and frame are those of any write-back. -/
theorem lwLoadsTheWordAtBasePlusOffset : Obligations.LwLoadsTheWordAtBasePlusOffset :=
  fun rd _ _ ignored s h =>
    ⟨_, exec_lw_of_inWindow h rd ignored, rfl, s.readReg_writeBack_self rd _, s.writeBack_frame rd _⟩

end Sys2Proof.Machine
end

section
/-! PROOFS. ADDI: the sum it writes and its frame (42_imm_arith.md R151). -/

namespace Sys2Proof.Machine

/-- ADDI writes back the sum of its source and its sign-extended immediate. -/
theorem exec_addi (rd rs1 : RegIdx) (imm : Imm12) (ignored : BitVec 3) (s : State) :
    exec (.addi rd rs1 imm ignored) s = .next (s.writeBack rd (s.readReg rs1 + sext imm)) := rfl

/-- Settles O11: the completion is a write-back of the sum, whose number is that of the ALU and of the sign extension. -/
theorem addiAddsTheSignExtendedImmediate : Obligations.AddiAddsTheSignExtendedImmediate := by
  intro rd rs1 imm ignored s
  refine ⟨_, exec_addi rd rs1 imm ignored s, ?_, s.writeBack_frame rd _⟩
  rw [State.readReg_writeBack_self]
  by_cases hrd : rd = 0#5
  · rw [if_pos hrd, if_pos hrd]
    rfl
  · rw [if_neg hrd, if_neg hrd, BitVec.toNat_add, sext_toNat]

end Sys2Proof.Machine
end

section
/-! PROOFS. SW in the window: the four bytes it stores and its frame (43_store.md R161). -/

namespace Sys2Proof.Machine

/-- The byte a stored Word leaves `k` addresses up (20_memory.md R61). -/
theorem Memory.read_putWord_add {m : Memory} (h : m.wf = true) {n : Nat} (hn : n ≤ 996) (v : Word) {k : Nat}
    (hk : k < 4) : (m.putWord n v).read (n + k) = byteOfWord v k := by
  rw [Memory.read_putWord_cases h hn, if_pos (by omega), Nat.add_sub_cancel_left]

/-- SW in the window puts its source register at its effective address and retires. -/
theorem exec_sw_of_inWindow {s : State} {rs1 : RegIdx} {imm : Imm12} (h : (effectiveAddress s rs1 imm).toNat ≤ 996)
    (rs2 : RegIdx) (ignored : BitVec 3) :
    exec (.sw rs2 rs1 imm ignored) s =
      .next { s with dmem := s.dmem.putWord (effectiveAddress s rs1 imm).toNat (s.readReg rs2) }.retire := by
  rw [exec, execSw_eq, if_pos h]

/-- All that a store and its `retire` leave unchanged, and the end of the cycle they make. -/
theorem State.retire_with_putWord_frame {s t : State} (hwf : s.dmem.wf = true) {n : Nat} (hn : n ≤ 996) {v : Word}
    (ht : t = { s with dmem := s.dmem.putWord n v }.retire) :
    DataKeptOutsideWord n s t ∧ RegsKept s t ∧ LaunchKept s t ∧ Retired s t := by
  subst ht
  refine ⟨fun a ha => ?_, fun _ => rfl, ⟨fun _ => rfl, rfl⟩, s.retire_with_dmem_retired _⟩
  rw [State.retire_dmem, Memory.read_putWord_cases hwf hn, if_neg (by omega)]

/-- Settles O12: the completion is a store of the source register, whose four bytes and frame are those of any stored Word. -/
theorem swStoresTheWordAtBasePlusOffset : Obligations.SwStoresTheWordAtBasePlusOffset := by
  intro rs2 rs1 imm ignored s hwf hin
  have hbyte {k : Nat} (hk : k < 4) := Memory.read_putWord_add hwf hin (s.readReg rs2) hk
  exact ⟨_, exec_sw_of_inWindow hin rs2 ignored, rfl, hbyte (k := 0) (by decide), hbyte (k := 1) (by decide),
    hbyte (k := 2) (by decide), hbyte (k := 3) (by decide), State.retire_with_putWord_frame hwf hin rfl⟩

end Sys2Proof.Machine
end

section
/-! PROOFS. SUB and ADD: the funct7 that tells them apart, the Word each writes and its frame, and the wrap modulo 2^32 that they
share with ADDI and the effective address (44_reg_arith.md R170 to R173). -/

namespace Sys2Proof

theorem decode_eq_sub {w : Word} (hop : fieldOpcode w = 0x33#7) (hf : fieldFunct7 w = funct7Sub) :
    decode w = .sub (fieldRd w) (fieldRs1 w) (fieldRs2 w) (fieldIgnored w) := by
  simp [decode_eq_ite, hop, hf]

/-- A sum with an immediate under the two's-complement reading (44_reg_arith.md R173). -/
theorem toInt_add_sext (a : Word) (imm : Imm12) : (a + sext imm).toInt = (a.toInt + imm.toInt).bmod (2 ^ 32) := by
  rw [BitVec.toInt_add, sext_toInt]

end Sys2Proof

namespace Sys2Proof.Machine

/-! ## The Word each writes back -/

/-- SUB writes back the difference of its sources. -/
theorem exec_sub (rd rs1 rs2 : RegIdx) (ignored : BitVec 3) (s : State) :
    exec (.sub rd rs1 rs2 ignored) s = .next (s.writeBack rd (s.readReg rs1 - s.readReg rs2)) := rfl

/-- ADD writes back the sum of its sources. -/
theorem exec_add (rd rs1 rs2 : RegIdx) (funct7 : BitVec 7) (ignored : BitVec 3) (s : State) :
    exec (.add rd rs1 rs2 funct7 ignored) s = .next (s.writeBack rd (s.readReg rs1 + s.readReg rs2)) := rfl

/-- Settles O13: both completions are write-backs, whose destination and frame are those of any write-back. -/
theorem subAndAddWriteTheDifferenceAndTheSum : Obligations.SubAndAddWriteTheDifferenceAndTheSum :=
  fun rd rs1 rs2 funct7 ignored s =>
    ⟨⟨_, exec_sub rd rs1 rs2 ignored s, s.readReg_writeBack_self rd _, s.writeBack_frame rd _⟩,
      ⟨_, exec_add rd rs1 rs2 funct7 ignored s, s.readReg_writeBack_self rd _, s.writeBack_frame rd _⟩⟩

/-! ## A destination other than x0 -/

theorem exec_sub_readReg {rd : RegIdx} (hrd : rd ≠ 0#5) (rs1 rs2 : RegIdx) (ignored : BitVec 3) (s : State) :
    ∃ t, exec (.sub rd rs1 rs2 ignored) s = .next t ∧ t.readReg rd = s.readReg rs1 - s.readReg rs2 :=
  ⟨_, exec_sub rd rs1 rs2 ignored s, by rw [State.readReg_writeBack_self, if_neg hrd]⟩

theorem exec_add_readReg {rd : RegIdx} (hrd : rd ≠ 0#5) (rs1 rs2 : RegIdx) (funct7 : BitVec 7) (ignored : BitVec 3)
    (s : State) :
    ∃ t, exec (.add rd rs1 rs2 funct7 ignored) s = .next t ∧ t.readReg rd = s.readReg rs1 + s.readReg rs2 :=
  ⟨_, exec_add rd rs1 rs2 funct7 ignored s, by rw [State.readReg_writeBack_self, if_neg hrd]⟩

/-- Settles O14: the decoder answers SUB for the one funct7 and ADD for every other. -/
theorem theWholeFunct7SelectsSubtraction : Obligations.TheWholeFunct7SelectsSubtraction := by
  intro w s hop hrd
  by_cases hf : fieldFunct7 w = 0x20#7
  · rw [if_pos hf, decode_eq_sub hop hf]
    exact exec_sub_readReg hrd ..
  · rw [if_neg hf, decode_eq_add hop hf]
    exact exec_add_readReg hrd ..

/-- Settles O15: ADD, ADDI and the effective address are one Word addition, SUB is Word subtraction, and both readings of a
Word carry these to sum and difference modulo 2^32. -/
theorem arithmeticWrapsUnderBothReadings : Obligations.ArithmeticWrapsUnderBothReadings := by
  intro rd rs1 rs2 imm funct7 ignored s hrd
  obtain ⟨tAdd, hAdd, hsum⟩ := exec_add_readReg hrd rs1 rs2 funct7 ignored s
  obtain ⟨tSub, hSub, hdiff⟩ := exec_sub_readReg hrd rs1 rs2 ignored s
  obtain ⟨tAddi, hAddi, hsumImm⟩ := exec_addi_readReg hrd rs1 imm ignored s
  refine ⟨⟨tAdd, hAdd, ?_⟩, ⟨tSub, hSub, ?_⟩, ⟨tAddi, hAddi, ?_⟩, BitVec.toNat_add .., toInt_add_sext ..⟩
  · rw [hsum]
    exact ⟨BitVec.toNat_add .., BitVec.toInt_add ..⟩
  · rw [hdiff]
    exact ⟨alu_sub_toNat .., BitVec.toInt_sub⟩
  · rw [hsumImm]
    exact ⟨BitVec.toNat_add .., toInt_add_sext ..⟩

end Sys2Proof.Machine
end

section
/-! PROOFS. HALT and the undefined opcodes: the whole of what each does to the state (45_halt_and_undefined.md R180, R182). -/

namespace Sys2Proof.Machine

/-- HALT only ends its cycle with the flag set. -/
theorem exec_halt (ignored : BitVec 25) (s : State) : exec (.halt ignored) s = .next s.setHaltPending := rfl

/-- Under policy NOP an undefined opcode only retires. -/
theorem exec_undefined_of_nop {s : State} (hp : s.unknownOpcodePolicy = .nop) (opcode : BitVec 7) (ignored : BitVec 25) :
    exec (.undefined opcode ignored) s = .next s.retire :=
  (exec_undefined_eq_next_iff ..).mpr ⟨hp, rfl⟩

/-- Under policy FAULT an undefined opcode raises `UnknownOpcode` with its own word. -/
theorem exec_undefined_of_fault {s : State} (hp : s.unknownOpcodePolicy = .fault) (opcode : BitVec 7)
    (ignored : BitVec 25) :
    exec (.undefined opcode ignored) s = .fault (.unknownOpcode (encode (.undefined opcode ignored)) s.pc s.instrs) := by
  rw [exec, execUndefined_eq, if_neg (by rw [hp]; decide)]

/-- Settles O16: `setHaltPending` is the flag and the cycle count, and no other field. -/
theorem haltSetsThePendingFlagAndFreezesThePc : Obligations.HaltSetsThePendingFlagAndFreezesThePc := exec_halt

/-- Settles O17: `retire` is the counted no-op of policy NOP, and policy FAULT raises in the state before the cycle. -/
theorem undefinedOpcodeIsANoOpOrAFaultByPolicy : Obligations.UndefinedOpcodeIsANoOpOrAFaultByPolicy :=
  fun opcode ignored _ =>
    ⟨fun hp => exec_undefined_of_nop hp opcode ignored, fun hp => exec_undefined_of_fault hp opcode ignored⟩

end Sys2Proof.Machine
end

section
/-! PROOFS. The faults of a step with their records, what a faulting cycle leaves and shows (60_exceptions.md R201 to R204), the
unknown-opcode policy (R206), and a source that is missing at the launch (R200). -/

namespace Sys2Proof.Machine

/-! ## When an instruction faults -/

theorem exec_lw_eq_fault_iff (rd rs1 : RegIdx) (imm : Imm12) (ignored : BitVec 3) (s : State) (f : Fault) :
    exec (.lw rd rs1 imm ignored) s = .fault f ↔ 996 < (effectiveAddress s rs1 imm).toNat ∧
      f = .loadOutOfWindow (effectiveAddress s rs1 imm) (encode (.lw rd rs1 imm ignored)) s.pc s.instrs := by
  by_cases h : 996 < (effectiveAddress s rs1 imm).toNat
  · simp [exec_lw_of_outOfWindow h, h, eq_comm]
  · simp [exec_lw_of_inWindow (Nat.not_lt.mp h), h]

theorem exec_sw_eq_fault_iff (rs2 rs1 : RegIdx) (imm : Imm12) (ignored : BitVec 3) (s : State) (f : Fault) :
    exec (.sw rs2 rs1 imm ignored) s = .fault f ↔ 996 < (effectiveAddress s rs1 imm).toNat ∧
      f = .storeOutOfWindow (effectiveAddress s rs1 imm) (encode (.sw rs2 rs1 imm ignored)) s.pc s.instrs := by
  by_cases h : 996 < (effectiveAddress s rs1 imm).toNat
  · simp [exec_sw_of_outOfWindow h, h, eq_comm]
  · simp [exec_sw_of_inWindow (Nat.not_lt.mp h), h]

theorem exec_undefined_eq_fault_iff (opcode : BitVec 7) (ignored : BitVec 25) (s : State) (f : Fault) :
    exec (.undefined opcode ignored) s = .fault f ↔ s.unknownOpcodePolicy = .fault ∧
      f = .unknownOpcode (encode (.undefined opcode ignored)) s.pc s.instrs := by
  cases hp : s.unknownOpcodePolicy with
  | nop => simp [exec_undefined_of_nop hp]
  | fault => simp [exec_undefined_of_fault hp, eq_comm]

/-- A fetched word faults as LW, as SW or as an undefined opcode, and its fault carries the word itself, whose bits the decoded
instruction keeps (60_exceptions.md R202, R204). -/
theorem exec_decode_eq_fault_iff (w : Word) (s : State) (f : Fault) :
    exec (decode w) s = .fault f ↔
      ((decodeRecord w).kind = .lw ∧ 996 < (effectiveAddress s (fieldRs1 w) (fieldImmI w)).toNat ∧
        f = .loadOutOfWindow (effectiveAddress s (fieldRs1 w) (fieldImmI w)) w s.pc s.instrs) ∨
      ((decodeRecord w).kind = .sw ∧ 996 < (effectiveAddress s (fieldRs1 w) (fieldImmS w)).toNat ∧
        f = .storeOutOfWindow (effectiveAddress s (fieldRs1 w) (fieldImmS w)) w s.pc s.instrs) ∨
      ((decodeRecord w).kind = .undefined ∧ s.unknownOpcodePolicy = .fault ∧ f = .unknownOpcode w s.pc s.instrs) := by
  have he := encode_decode w
  rw [decodeRecord_kind]
  obtain ⟨-, hd⟩ | ⟨-, hd⟩ | ⟨-, hd⟩ | ⟨-, -, hd⟩ | ⟨-, -, hd⟩ | ⟨-, hd⟩ | ⟨-, hd⟩ := decode_cases w <;>
    rw [hd] at he ⊢
  · simp [exec_lw_eq_fault_iff, he, Instr.kind]
  · simp [exec_addi, Instr.kind]
  · simp [exec_sw_eq_fault_iff, he, Instr.kind]
  · simp [exec_sub, Instr.kind]
  · simp [exec_add, Instr.kind]
  · simp [exec_halt, Instr.kind]
  · simp [exec_undefined_eq_fault_iff, he, Instr.kind]

/-! ## When a step faults -/

/-- Only a fetch cycle faults: its fetch is out of the window, or the word it fetched faults. -/
theorem step_eq_fault_iff (s : State) (f : Fault) :
    step s = .fault f ↔ s.Fetching ∧ ((996 < s.pc.toNat ∧ f = .fetchOutOfWindow s.pc s.instrs) ∨
      ∃ w, s.fetch = some w ∧ exec (decode w) s = .fault f) := by
  constructor
  · intro h
    obtain ⟨-, hs⟩ | ⟨-, -, hs⟩ | ⟨hm, hp, hw, hs⟩ | ⟨w, hm, hp, hw, hs⟩ := step_cases s <;> rw [hs] at h
    · cases h
    · cases h
    · cases h
      exact ⟨⟨hm, hp⟩, .inl ⟨(fetch_eq_none_iff s).mp hw, rfl⟩⟩
    · exact ⟨⟨hm, hp⟩, .inr ⟨w, hw, h⟩⟩
  · rintro ⟨hs, ⟨hpc, rfl⟩ | ⟨w, hw, hx⟩⟩
    · exact step_of_fetch_none hs ((fetch_eq_none_iff s).mpr hpc)
    · rw [step_of_fetch hs hw, hx]

/-- Settles O27: a fault is that of the fetch or of the fetched word, and each of the four has the record the statement lists. -/
theorem theFourFaultsAndTheirRecords : Obligations.TheFourFaultsAndTheirRecords := by
  intro s r
  simp only [step_eq_fault_iff, exec_decode_eq_fault_iff]
  constructor
  · rintro ⟨f, ⟨hs, ⟨hpc, rfl⟩ | ⟨w, hw, ⟨hk, ha, rfl⟩ | ⟨hk, ha, rfl⟩ | ⟨hk, hp, rfl⟩⟩⟩, rfl⟩
    · exact ⟨hs, .inl ⟨hpc, rfl⟩⟩
    · exact ⟨hs, .inr ⟨w, hw, .inl ⟨hk, ha, rfl⟩⟩⟩
    · exact ⟨hs, .inr ⟨w, hw, .inr (.inl ⟨hk, ha, rfl⟩)⟩⟩
    · exact ⟨hs, .inr ⟨w, hw, .inr (.inr ⟨hk, hp, rfl⟩)⟩⟩
  · rintro ⟨hs, ⟨hpc, rfl⟩ | ⟨w, hw, ⟨hk, ha, rfl⟩ | ⟨hk, ha, rfl⟩ | ⟨hk, hp, rfl⟩⟩⟩
    · exact ⟨_, ⟨hs, .inl ⟨hpc, rfl⟩⟩, rfl⟩
    · exact ⟨_, ⟨hs, .inr ⟨w, hw, .inl ⟨hk, ha, rfl⟩⟩⟩, rfl⟩
    · exact ⟨_, ⟨hs, .inr ⟨w, hw, .inr (.inl ⟨hk, ha, rfl⟩)⟩⟩, rfl⟩
    · exact ⟨_, ⟨hs, .inr ⟨w, hw, .inr (.inr ⟨hk, hp, rfl⟩)⟩⟩, rfl⟩

/-! ## The faulting cycle -/

/-- A faulting cycle: the state before it, with the fault record in place of a trace record (60_exceptions.md R203). -/
theorem cycle_of_step_fault {s : State} {f : Fault} (h : step s = .fault f) :
    cycle s = (s, outputsOf s (some f.record) none s.diagUnknownOpcode) := by
  simp [cycle, h]

theorem stepN_succ_of_step_fault {s : State} {f : Fault} (h : step s = .fault f) (n : Nat) :
    stepN (n + 1) s = .fault f := by
  simp [stepN, h]

/-- Settles O28: a faulting cycle shows the state before it, which is one about to fetch and so RUNNING. -/
theorem aFaultingCycleCommitsNothing : Obligations.AFaultingCycleCommitsNothing := by
  intro s f h
  obtain ⟨hs, -⟩ := (step_eq_fault_iff s f).mp h
  have hhalted : s.isHalted = false := by simp [State.isHalted, hs.running]
  rw [cycle_of_step_fault h]
  exact ⟨rfl, rfl, rfl, hhalted, stepN_succ_of_step_fault h⟩

/-! ## An undefined opcode under each policy -/

/-- An undefined opcode under policy NOP retires and does nothing else (60_exceptions.md R206). -/
theorem exec_of_kind_undefined_of_nop {i : Instr} {s : State} (hk : i.kind = .undefined)
    (hp : s.unknownOpcodePolicy = .nop) : exec i s = .next s.retire := by
  cases i with
  | undefined opcode ignored => exact exec_undefined_of_nop hp opcode ignored
  | _ => cases hk

/-- An undefined opcode under policy FAULT raises `UnknownOpcode` with the fetched word (60_exceptions.md R206). -/
theorem exec_decode_of_kind_undefined_of_fault {w : Word} {s : State} (hk : (decode w).kind = .undefined)
    (hp : s.unknownOpcodePolicy = .fault) : exec (decode w) s = .fault (.unknownOpcode w s.pc s.instrs) :=
  (exec_decode_eq_fault_iff ..).mpr (.inr (.inr ⟨(decodeRecord_kind w).trans hk, hp, rfl⟩))

/-- Settles O29: the cycle shows the fault or the retired state, and the diagnostic of the state it began with. -/
theorem unknownOpcodeFollowsThePolicy : Obligations.UnknownOpcodeFollowsThePolicy := by
  intro s w hs hw hk
  have hstep := step_of_fetch hs hw
  refine ⟨fun hp => ?_, fun hp => ?_⟩
  · rw [exec_decode_of_kind_undefined_of_fault hk hp] at hstep
    rw [cycle_of_step_fault hstep]
    exact ⟨rfl, rfl⟩
  · rw [exec_of_kind_undefined_of_nop hk hp] at hstep
    rw [cycle_of_step_next hs.running hstep]
    exact ⟨rfl, rfl, (diagUnknownOpcode_iff s).mpr ⟨hs, w, hw, hk⟩⟩

/-! ## A missing source -/

section
variable {policy : UnknownOpcodePolicy} {imemSource dmemSource : Option (List (List Char))} {imemPad dmemPad : Nat → Byte}

/-- A failing Instruction Store source names the failure, whatever the other source (log entry 12). -/
theorem launch_of_imemSource_error {e : LoadFailure} (h : readSource imemSource = .error e) :
    launch policy imemSource imemPad dmemSource dmemPad = .error e := by
  simp [launch, h]

theorem launch_of_dmemSource_error {image : List Byte} {e : LoadFailure} (hi : readSource imemSource = .ok image)
    (hd : readSource dmemSource = .error e) : launch policy imemSource imemPad dmemSource dmemPad = .error e := by
  simp [launch, hi, hd]

end

/-- Settles O58: a launch fails with the first source that is not read, and a missing source is not read. -/
theorem aMissingSourceIsALoadFailure : Obligations.AMissingSourceIsALoadFailure := by
  intro policy source imemPad dmemPad
  have himem : launch policy none imemPad source dmemPad = .error .missing := launch_of_imemSource_error readSource_none
  refine ⟨by simp [himem], ?_, fun hok => ⟨himem, ?_⟩⟩
  · cases hsource : readSource source with
    | error e => simp [launch_of_imemSource_error hsource]
    | ok image => simp [launch_of_dmemSource_error hsource readSource_none]
  · cases source with
    | none => exact launch_of_imemSource_error readSource_none
    | some lines =>
      obtain ⟨image, himage⟩ := (parseImage_ok_iff lines).mpr (hok lines rfl)
      exact launch_of_dmemSource_error himage readSource_none

end Sys2Proof.Machine
end

section
/-! PROOFS. The state after reset and after construction (70_reset_and_hazards.md R230, 20_memory.md R77, R79). -/

namespace Sys2Proof.Machine

/-! ## Reset -/

/-- Settles O42: the stores are empty, every counter is 0, and no HALT is pending. -/
theorem resetMeetsTheMachineInvariant : Obligations.ResetMeetsTheMachineInvariant where
  imemCanonical := rfl
  dmemCanonical := rfl
  pcCountsInstrs := rfl
  instrsInWindow := Nat.zero_le _
  haltInWindow := by simp
  haltedWasPending := by simp
  cyclesCountInstrs := rfl

/-! ## A loaded image -/

/-- Byte `a` of the window is the image's where the image reaches `a`, and open elsewhere. -/
theorem getElem?_fillImage (image : List Byte) (pad : Nat → Byte) {a : Nat} (ha : a < memSize) :
    (fillImage image pad)[a]? = some ((image[a]?).getD (pad a)) := by
  unfold fillImage
  rcases Nat.lt_or_ge a image.length with h | h
  · simp [List.getElem?_append_left h, h]
  · have hk : a - image.length < memSize - image.length := by omega
    simp [List.getElem?_append_right h, h, hk]

/-- What a loaded store reads as at each address of the window (20_memory.md R77, R79). -/
theorem loadImage_read {image : List Byte} {pad : Nat → Byte} {m : Memory} (h : loadImage image pad = .ok m) {a : Nat}
    (ha : a < memSize) : m.read a = (image[a]?).getD (pad a) := by
  obtain ⟨hl, rfl⟩ := (loadImage_eq_ok_iff image pad m).mp h
  have hfit : 0 + (fillImage image pad).length ≤ memSize := by rw [Nat.zero_add, fillImage_length pad hl]
  simpa using Memory.read_ofBytes hfit a _ (getElem?_fillImage image pad ha)

/-! ## Construction -/

/-- Construction loads both images, and adds them and the policy to the state after reset. -/
theorem State.construct_eq_ok_iff (policy : UnknownOpcodePolicy) (imemImage dmemImage : List Byte)
    (imemPad dmemPad : Nat → Byte) (s : State) :
    State.construct policy imemImage imemPad dmemImage dmemPad = .ok s ↔
      ∃ imem dmem, loadImage imemImage imemPad = .ok imem ∧ loadImage dmemImage dmemPad = .ok dmem ∧
        s = { State.reset with imem := imem, dmem := dmem, unknownOpcodePolicy := policy } := by
  unfold State.construct
  cases loadImage imemImage imemPad <;> cases loadImage dmemImage dmemPad <;> simp [eq_comm]

/-- Settles O43: the stores read as their loaded images, and the rest is the state after reset under the policy. -/
theorem constructionSetsEveryPieceOfState : Obligations.ConstructionSetsEveryPieceOfState := by
  intro policy imemImage dmemImage imemPad dmemPad s h
  have hinv : s.Inv := State.Inv.of_construct h
  obtain ⟨imem, dmem, himem, hdmem, rfl⟩ := (State.construct_eq_ok_iff ..).mp h
  have hregs (r : RegIdx) :
      State.readReg { State.reset with imem := imem, dmem := dmem, unknownOpcodePolicy := policy } r = 0 :=
    (State.readReg_congr rfl r).trans (State.readReg_reset r)
  exact ⟨rfl, hregs, fun _ => loadImage_read himem, fun _ => loadImage_read hdmem, rfl, rfl, rfl, rfl, rfl, hinv⟩

end Sys2Proof.Machine
end
